-- ==== Sys2Proof/Word.lean ====
section
/-! DEFINITION. The word types of the block (spec 00_scope.md R12, 10_state.md R30): bit 0 is the least significant bit
of every word. Lengths, offsets and counts are natural numbers (R13; R33 and 92_eei_decisions.md D3 for BLEN and RLEN). -/

namespace Sys2Proof

/-- One byte of BUF, SCR or LUT. -/
abbrev Byte := BitVec 8

/-- A command word, the 16 bits the host writes to CMD (30_encoding.md R70). -/
abbrev CmdWord := BitVec 16

/-- The contents of VAL and of the local copy `v` (10_state.md R32, R35). -/
abbrev Value := BitVec 128

/-- The buffer-access mode, the UNCHK bit of a command word (30_encoding.md R73): 0 Checked, 1 Unchecked. -/
inductive Mode where
  | checked
  | unchecked
deriving DecidableEq, Repr

/-- The five value widths (00_scope.md R8, 30_encoding.md R72). -/
inductive Width where
  | w8
  | w16
  | w32
  | w64
  | w128
deriving DecidableEq, Repr

end Sys2Proof
end

