-- ==== Sys2Proof/Syntax.lean ====
section
/-! DEFINITION. The commands of the block: one constructor per row of the command map (spec 30_encoding.md R75), which is
one row of spec/opcode_table.json. The row fixes OP and WSEL, so the only field left is the UNCHK bit (R73), the
constructor's argument. A command has no other operand: VAL and BLEN are its operands by position (R70, R76). -/

namespace Sys2Proof

/-- The 27 rows of the command map, in the table's order. -/
inductive Instr where
  /-- LUTRD.U8, word 0x0001 (R94). -/
  | lutrdU8 (mode : Mode)
  /-- DCOUNT.U8, word 0x0002 (R108). -/
  | dcountU8 (mode : Mode)
  /-- DCOUNT.U16, word 0x0012 (R108). -/
  | dcountU16 (mode : Mode)
  /-- DCOUNT.U32, word 0x0022 (R108). -/
  | dcountU32 (mode : Mode)
  /-- DCOUNT.U64, word 0x0032 (R108). -/
  | dcountU64 (mode : Mode)
  /-- DCOUNT.U128, word 0x0042 (R108). -/
  | dcountU128 (mode : Mode)
  /-- WRNT.U8, word 0x0003 (R124). -/
  | wrntU8 (mode : Mode)
  /-- WRNT.U16, word 0x0013 (R124). -/
  | wrntU16 (mode : Mode)
  /-- WRNT.U32, word 0x0023 (R124). -/
  | wrntU32 (mode : Mode)
  /-- WRNT.U64, word 0x0033 (R124). -/
  | wrntU64 (mode : Mode)
  /-- WRNT.U128, word 0x0043 (R124). -/
  | wrntU128 (mode : Mode)
  /-- WRNX.U8, word 0x0004 (R123). -/
  | wrnxU8 (mode : Mode)
  /-- WRNX.U16, word 0x0014 (R123). -/
  | wrnxU16 (mode : Mode)
  /-- WRNX.U32, word 0x0024 (R123). -/
  | wrnxU32 (mode : Mode)
  /-- WRNX.U64, word 0x0034 (R123). -/
  | wrnxU64 (mode : Mode)
  /-- WRNX.U128, word 0x0044 (R123). -/
  | wrnxU128 (mode : Mode)
  /-- WRP.U8, word 0x0005 (R141). -/
  | wrpU8 (mode : Mode)
  /-- WRP.U16, word 0x0015 (R141). -/
  | wrpU16 (mode : Mode)
  /-- WRP.U32, word 0x0025 (R141). -/
  | wrpU32 (mode : Mode)
  /-- WRP.U64, word 0x0035 (R141). -/
  | wrpU64 (mode : Mode)
  /-- WRP.U128, word 0x0045 (R141). -/
  | wrpU128 (mode : Mode)
  /-- WRM.U8, word 0x0006 (R162). -/
  | wrmU8 (mode : Mode)
  /-- WRM.U16, word 0x0016 (R162). -/
  | wrmU16 (mode : Mode)
  /-- WRM.U32, word 0x0026 (R162). -/
  | wrmU32 (mode : Mode)
  /-- WRF10.U32, word 0x0027 (R165). -/
  | wrf10U32 (mode : Mode)
  /-- WRW.U64, word 0x0038 (R182). -/
  | wrwU64 (mode : Mode)
  /-- WRW.U128, word 0x0048 (R182). -/
  | wrwU128 (mode : Mode)
deriving DecidableEq, Repr

end Sys2Proof
end

