-- ==== Sys2Proof/WellFormed.lean ====
section
/-! DEFINITION. Which terms of `Instr` are commands of the map (spec 30_encoding.md R73, R77 e): UNCHK must be 0 on
DCOUNT. Every other constructor takes both modes. -/

namespace Sys2Proof

/-- The UNCHK argument of a command, whatever its row (R73). -/
def Instr.mode : Instr → Mode
  | .lutrdU8 mode => mode
  | .dcountU8 mode => mode
  | .dcountU16 mode => mode
  | .dcountU32 mode => mode
  | .dcountU64 mode => mode
  | .dcountU128 mode => mode
  | .wrntU8 mode => mode
  | .wrntU16 mode => mode
  | .wrntU32 mode => mode
  | .wrntU64 mode => mode
  | .wrntU128 mode => mode
  | .wrnxU8 mode => mode
  | .wrnxU16 mode => mode
  | .wrnxU32 mode => mode
  | .wrnxU64 mode => mode
  | .wrnxU128 mode => mode
  | .wrpU8 mode => mode
  | .wrpU16 mode => mode
  | .wrpU32 mode => mode
  | .wrpU64 mode => mode
  | .wrpU128 mode => mode
  | .wrmU8 mode => mode
  | .wrmU16 mode => mode
  | .wrmU32 mode => mode
  | .wrf10U32 mode => mode
  | .wrwU64 mode => mode
  | .wrwU128 mode => mode

/-- The operation touches no buffer, so UNCHK must be 0 (R73: DCOUNT and nothing else). -/
def Instr.modeless : Instr → Bool
  | .lutrdU8 _ => false
  | .dcountU8 _ => true
  | .dcountU16 _ => true
  | .dcountU32 _ => true
  | .dcountU64 _ => true
  | .dcountU128 _ => true
  | .wrntU8 _ => false
  | .wrntU16 _ => false
  | .wrntU32 _ => false
  | .wrntU64 _ => false
  | .wrntU128 _ => false
  | .wrnxU8 _ => false
  | .wrnxU16 _ => false
  | .wrnxU32 _ => false
  | .wrnxU64 _ => false
  | .wrnxU128 _ => false
  | .wrpU8 _ => false
  | .wrpU16 _ => false
  | .wrpU32 _ => false
  | .wrpU64 _ => false
  | .wrpU128 _ => false
  | .wrmU8 _ => false
  | .wrmU16 _ => false
  | .wrmU32 _ => false
  | .wrf10U32 _ => false
  | .wrwU64 _ => false
  | .wrwU128 _ => false

/-- A well-formed command: the UNCHK bit is clear where R73 asks for it. -/
def Instr.wellFormed (i : Instr) : Bool :=
  !(i.modeless && decide (i.mode = .unchecked))

/-- `Instr.wellFormed` as a proposition. -/
abbrev WellFormed (i : Instr) : Prop := i.wellFormed = true

end Sys2Proof
end

