-- ==== Sys2Proof/Decode.lean ====
section
/-! DEFINITION. Decoding a command word (spec 30_encoding.md R70 to R78), total on all 65536 words and refusing by name,
and after it the encoder, written from the match words of R75. -/

namespace Sys2Proof

/-- Why a command is IllegalCommand (R77, R78). The block records neither the word nor the reason (60_exceptions.md R196):
the names are for the reader. -/
inductive IllegalReason where
  /-- A bit of 15:8 is set (R74, R77 a). -/
  | reservedBits
  /-- (OP, WSEL) is no row of the command map (R77 b, c, d). -/
  | opWidth
  /-- UNCHK is set on DCOUNT (R77 e). -/
  | modeOnDcount
deriving DecidableEq, Repr

/-- What a command word decodes to. -/
inductive Decoded where
  | legal (i : Instr)
  | illegal (why : IllegalReason)
deriving DecidableEq, Repr

/-- OP, bits 3:0 (R71). -/
def opField (c : CmdWord) : BitVec 4 := c.extractLsb' 0 4

/-- WSEL, bits 6:4 (R72). -/
def wselField (c : CmdWord) : BitVec 3 := c.extractLsb' 4 3

/-- UNCHK, bit 7 (R73). -/
def modeField (c : CmdWord) : Mode := if c.getLsbD 7 then .unchecked else .checked

/-- ZERO, bits 15:8 (R74). -/
def zeroField (c : CmdWord) : BitVec 8 := c.extractLsb' 8 8

/-- The row of the command map that an (OP, WSEL) pair selects (R71, R72, R75). -/
def rowOf (op wsel : Nat) (mode : Mode) : Option Instr :=
  match op, wsel with
  | 1, 0 => some (.lutrdU8 mode)
  | 2, 0 => some (.dcountU8 mode)
  | 2, 1 => some (.dcountU16 mode)
  | 2, 2 => some (.dcountU32 mode)
  | 2, 3 => some (.dcountU64 mode)
  | 2, 4 => some (.dcountU128 mode)
  | 3, 0 => some (.wrntU8 mode)
  | 3, 1 => some (.wrntU16 mode)
  | 3, 2 => some (.wrntU32 mode)
  | 3, 3 => some (.wrntU64 mode)
  | 3, 4 => some (.wrntU128 mode)
  | 4, 0 => some (.wrnxU8 mode)
  | 4, 1 => some (.wrnxU16 mode)
  | 4, 2 => some (.wrnxU32 mode)
  | 4, 3 => some (.wrnxU64 mode)
  | 4, 4 => some (.wrnxU128 mode)
  | 5, 0 => some (.wrpU8 mode)
  | 5, 1 => some (.wrpU16 mode)
  | 5, 2 => some (.wrpU32 mode)
  | 5, 3 => some (.wrpU64 mode)
  | 5, 4 => some (.wrpU128 mode)
  | 6, 0 => some (.wrmU8 mode)
  | 6, 1 => some (.wrmU16 mode)
  | 6, 2 => some (.wrmU32 mode)
  | 7, 2 => some (.wrf10U32 mode)
  | 8, 3 => some (.wrwU64 mode)
  | 8, 4 => some (.wrwU128 mode)
  | _, _ => none

/-- The legality tests of the prologue in the order of R78 and 60_exceptions.md R198: reserved bits, then the (OP, WSEL)
pair, then UNCHK on DCOUNT. The fourth test, the LUTRD index, looks at VAL and stands in the meaning of LUTRD. -/
def decode (c : CmdWord) : Decoded :=
  if zeroField c ≠ 0 then .illegal .reservedBits
  else
    match rowOf (opField c).toNat (wselField c).toNat (modeField c) with
    | none => .illegal .opWidth
    | some i => if i.wellFormed then .legal i else .illegal .modeOnDcount

/-- The Checked word of a command's row: the `match` column of R75. -/
def matchWord : Instr → CmdWord
  | .lutrdU8 _ => 0x0001
  | .dcountU8 _ => 0x0002
  | .dcountU16 _ => 0x0012
  | .dcountU32 _ => 0x0022
  | .dcountU64 _ => 0x0032
  | .dcountU128 _ => 0x0042
  | .wrntU8 _ => 0x0003
  | .wrntU16 _ => 0x0013
  | .wrntU32 _ => 0x0023
  | .wrntU64 _ => 0x0033
  | .wrntU128 _ => 0x0043
  | .wrnxU8 _ => 0x0004
  | .wrnxU16 _ => 0x0014
  | .wrnxU32 _ => 0x0024
  | .wrnxU64 _ => 0x0034
  | .wrnxU128 _ => 0x0044
  | .wrpU8 _ => 0x0005
  | .wrpU16 _ => 0x0015
  | .wrpU32 _ => 0x0025
  | .wrpU64 _ => 0x0035
  | .wrpU128 _ => 0x0045
  | .wrmU8 _ => 0x0006
  | .wrmU16 _ => 0x0016
  | .wrmU32 _ => 0x0026
  | .wrf10U32 _ => 0x0027
  | .wrwU64 _ => 0x0038
  | .wrwU128 _ => 0x0048

/-- The `mask` column of R75: the bits of a word that its row fixes. -/
def maskWord (i : Instr) : CmdWord := if i.modeless then 0xFFFF else 0xFF7F

/-- The command word of an instruction (R75): the Unchecked word is the match word with bit 7 set. -/
def encode (i : Instr) : CmdWord :=
  match i.mode with
  | .checked => matchWord i
  | .unchecked => matchWord i ||| 0x0080

/-- What the decoder reads from an instruction whose `nbits` bits are `w`, bit 0 the least significant (R70, R79: a command
is one 16-bit word, so a longer instruction is none of the map's and the bits above `nbits` are 0). -/
def decodeTableWord (nbits w : Nat) : Option Instr :=
  if 16 < nbits then none
  else
    match decode (BitVec.ofNat 16 (w % 2 ^ nbits)) with
    | .legal i => some i
    | .illegal _ => none

end Sys2Proof
end

