-- ==== Sys2Proof/Config.lean ====
section
/-! DEFINITION. What an implementation fixes (spec 00_scope.md R10) and the free values. The width LENW of BLEN and RLEN is
an open parameter (R10, 92_eei_decisions.md D3); the model holds those registers as naturals, which covers every LENW
(DESIGN CHOICE, log entry 1), so LENW is no constant here. -/

namespace Sys2Proof.Config

/-- SCR_LEN, the size of the scratch buffer in bytes (R10, 20_memory.md R52). -/
def scrLen : Nat := 40

/-- What a transient register holds once its command has completed: the spec gives it no value (10_state.md R35, R40, R41,
93_implementation_defined.md U9). A free value: nothing constrains it. The first argument counts the completions, the second
numbers the register (DESIGN CHOICE, log entry 3). -/
opaque leftover : Nat → Nat → Nat

end Sys2Proof.Config
end

