-- ==== Sys2Proof/Machine/State.lean ====
section
/-! DEFINITION. The state of the block and of its host, as plain data (spec 10_state.md, 20_memory.md R50 to R52,
70_reset_and_hazards.md R210 to R213), and how a step can stop. The constant tables are definitions (R28), in
Sys2Proof/Machine/Tables.lean. -/

namespace Sys2Proof.Machine

/-- A byte memory by offset: the cells that hold a value, offsets strictly rising. An unlisted byte has no value, and
reading it is a fault (log entry 4). -/
abbrev Memory := List Host.Cell

/-- The two byte memories a command reads and writes (20_memory.md R50). -/
inductive Space where
  /-- The host's buffer, offsets 0 .. BLEN-1 for the block. -/
  | buf
  /-- The scratch buffer, offsets 0 .. 39. -/
  | scr
deriving DecidableEq, Repr

/-- One access of a command to BUF or SCR (R57: one byte each). -/
inductive Access where
  | read (sp : Space) (off : Nat)
  | write (sp : Space) (off : Nat) (b : Byte)
deriving DecidableEq, Repr

/-- The host registers x[0] .. x[4] (10_state.md R30). -/
inductive HostReg where
  | cmd
  | val
  | blen
  | rlen
  | status
deriving DecidableEq, Repr

/-- One move of the host (30_encoding.md R81, 70_reset_and_hazards.md R213). RLEN is read-only, so it has no write move
(10_state.md R30). -/
inductive HostMove where
  /-- `VAL <- v`. -/
  | writeVal (v : Value)
  /-- `BLEN <- n`. -/
  | writeBlen (n : Nat)
  /-- `BUF[off .. off + length) <- bytes`. -/
  | writeBuf (off : Nat) (bytes : List Byte)
  /-- `CMD <- c`: put a command on CMD; the unit performs it in its next step. -/
  | writeCmd (c : CmdWord)
  /-- A write to STATUS, which has no effect (10_state.md R36). -/
  | writeStatus (b : Byte)
  /-- A read of a host register. -/
  | readReg (r : HostReg)
  /-- A read of one byte of BUF. -/
  | readBuf (off : Nat)
  /-- The reset input (70_reset_and_hazards.md R210). -/
  | reset
deriving DecidableEq, Repr

/-- The transient registers (10_state.md R35), alive inside one command. `cur` and `p` have LENW bits and are naturals
(log entry 1). SCR, the last row of R35, is a memory of its own. -/
structure Transients where
  /-- The local copy of the value. -/
  v : Value
  /-- The WriteCursor, a byte offset into BUF or SCR. -/
  cur : Nat
  /-- The digit count. -/
  n : BitVec 6
  /-- The remainder by 10, 100 or 10000. -/
  r : BitVec 14
  /-- Byte offset into LUT of the upper pair. -/
  pairHi : BitVec 8
  /-- Byte offset into LUT of the lower pair. -/
  pairLo : BitVec 8
  /-- The binary logarithm. -/
  log2 : BitVec 7
  /-- The log10 estimate. -/
  est : BitVec 6
  /-- The fixed-point product and its refinements. -/
  prod : BitVec 64
  /-- The leading digit or pair of the first product. -/
  lead : BitVec 7
  /-- The lower chunks, `chunk[0]` the least significant. -/
  chunk : Vector (BitVec 30) 4
  /-- How many lower chunks there are. -/
  m : BitVec 3
  /-- The offset of the boundary byte. -/
  p : Nat
  /-- The saved boundary byte. -/
  sav : Byte
deriving DecidableEq, Repr

/-- The state of the block, of BUF and of the host's script. -/
structure State where
  /-- VAL, x[1] (R32). -/
  val : Value
  /-- BLEN, x[2] (R33), a natural (log entry 1). -/
  blen : Nat
  /-- RLEN, x[3] (R34), a natural (log entry 1). -/
  rlen : Nat
  /-- STATUS, x[4] (R36). -/
  status : Byte
  /-- CMD, x[0] (R31): the command word written and not yet performed. -/
  cmd : Option CmdWord
  /-- The host has written VAL since reset (R41, R42). -/
  valWritten : Bool
  /-- The host has written BLEN since reset (R41, R42). -/
  blenWritten : Bool
  /-- BUF (20_memory.md R51). -/
  buf : Memory
  /-- SCR (20_memory.md R52). -/
  scr : Memory
  /-- The transient registers (R35). -/
  tr : Transients
  /-- The host moves still to be made (30_encoding.md R81). -/
  script : List HostMove
  /-- The MODEL's own: the BUF and SCR accesses of the most recent command, first one first (log entry 10). -/
  trace : List Access
  /-- The MODEL's own: picks the next free values (log entry 3). -/
  freeCount : Nat
deriving DecidableEq, Repr

/-- Where the model stops although the spec gives no such event: each names a bound the spec shows is kept, so no command
raises one (log entry 11). All are safe: a claim about a next state says nothing of a run that stops. -/
inductive Fault where
  /-- A store or load outside 0 .. BLEN-1 of BUF or 0 .. 39 of SCR, raised by the accessors (20_memory.md R50, R60). Safe. -/
  | outOfRange (sp : Space) (off : Nat)
  /-- A load of a byte that holds no value, raised by the loads (20_memory.md R65). Safe. -/
  | noByte (sp : Space) (off : Nat)
  /-- `put1` of a number that is no digit (40_digit_pair_lut.md R92). Safe. -/
  | notADigit (d : Nat)
  /-- `put2` of an index of 100 or more (R93, R96, 93_implementation_defined.md U11). Safe. -/
  | lutIndex (i : Nat)
  /-- A read of DCT32, PT or BAND at an index with no entry (10_state.md R23, R25, R26). Safe. -/
  | tableIndex (i : Nat)
  /-- The cursor would go below 0 (10_state.md R39). Safe. -/
  | cursorUnderflow
  /-- A fifth lower chunk (45_wide_splitter.md R177). Safe. -/
  | chunkOverflow
  /-- A loop ran more often than 70_reset_and_hazards.md R221 allows. Safe. -/
  | loopBound
deriving DecidableEq, Repr

/-- What the spec tells a model to refuse. -/
inductive Refusal where
  /-- An instruction that has no meaning yet, raised by an arm of `exec`. Safe. -/
  | notModelled (mnemonic : String)
  /-- A command that reads VAL before the host has written it since reset, raised by the prologue: 10_state.md R42 and
  93_implementation_defined.md U3 give it no meaning and ask a model to refuse it. Safe. -/
  | valNotWritten
  /-- A command that reads BLEN before the host has written it since reset, raised by the prologue: 10_state.md R42 and
  93_implementation_defined.md U3 give it no meaning and ask a model to refuse it. Safe. -/
  | blenNotWritten
  /-- An Unchecked command with BLEN below its required length, raised by the capacity check (60_exceptions.md R193). Safe. -/
  | uncheckedCapacity
  /-- A host move that is forbidden while STATUS.BUSY = 1, raised by the host's step (70_reset_and_hazards.md R211, R215,
  R216). Safe. -/
  | hostWhileBusy
  /-- A host read of CMD, raised by the host's step (10_state.md R31). Safe. -/
  | cmdRead
deriving DecidableEq, Repr

/-- The transient registers at reset. The spec gives them no value (10_state.md R41): DESIGN CHOICE, log entry 3. -/
def Transients.atReset : Transients where
  v := 0
  cur := 0
  n := 0
  r := 0
  pairHi := 0
  pairLo := 0
  log2 := 0
  est := 0
  prod := 0
  lead := 0
  chunk := #v[0, 0, 0, 0]
  m := 0
  p := 0
  sav := 0

/-- The machine right after reset (10_state.md R41, 70_reset_and_hazards.md R210): no command pending, RLEN = 0,
STATUS = 0x00, VAL and BLEN not written. The numbers in VAL and BLEN are DESIGN CHOICE (log entry 2). -/
def State.reset : State where
  val := 0
  blen := 0
  rlen := 0
  status := 0x00
  cmd := none
  valWritten := false
  blenWritten := false
  buf := []
  scr := []
  tr := Transients.atReset
  script := []
  trace := []
  freeCount := 0

end Sys2Proof.Machine
end

