-- ==== Sys2Proof/Machine/Flags.lean ====
section
/-! DEFINITION. The fields of STATUS (spec 10_state.md R36, R37) and the fault codes (60_exceptions.md R196). The block has
no condition codes. -/

namespace Sys2Proof.Machine

/-- The two faults a command can complete with (R190, R196). -/
inductive ErrCode where
  | bufferTooSmall
  | illegalCommand
deriving DecidableEq, Repr

/-- The code written to STATUS.ERR (R196). -/
def ErrCode.bits : ErrCode → BitVec 2
  | .bufferTooSmall => 1
  | .illegalCommand => 2

/-- STATUS.DONE, bit 0. -/
def statusDone (st : Byte) : Bool := st.getLsbD 0

/-- STATUS.BUSY, bit 1. -/
def statusBusy (st : Byte) : Bool := st.getLsbD 1

/-- STATUS.ERR, bits 3:2. -/
def statusErr (st : Byte) : BitVec 2 := st.extractLsb' 2 2

/-- The reserved bits 7:4. -/
def statusReserved (st : Byte) : BitVec 4 := st.extractLsb' 4 4

/-- STATUS put together from its fields, bits 7:4 zero (R36). -/
def statusWord (done busy : Bool) (err : BitVec 2) : Byte :=
  (0 : BitVec 4) ++ err ++ BitVec.ofBool busy ++ BitVec.ofBool done

end Sys2Proof.Machine
end

