-- ==== Sys2Proof/Machine/Operands.lean ====
section
/-! DEFINITION. The value operand (spec 00_scope.md R8, R9, 30_encoding.md R72, R76). -/

namespace Sys2Proof.Machine

/-- WSEL of a width (R72). -/
def widthSel : Width → Nat
  | .w8 => 0
  | .w16 => 1
  | .w32 => 2
  | .w64 => 3
  | .w128 => 4

/-- W = 8 << WSEL (R72). -/
def widthBits (w : Width) : Nat := 8 <<< widthSel w

/-- max_digits(W), the capacity that suffices for every value of the width (R9). -/
def maxDigits : Width → Nat
  | .w8 => 3
  | .w16 => 5
  | .w32 => 10
  | .w64 => 20
  | .w128 => 39

/-- The value operand VAL[W-1:0], zero-extended to 128 bits (R76): the bits of VAL above W are ignored. -/
def operand (w : Width) (val : Value) : Value := (val.setWidth (widthBits w)).setWidth 128

end Sys2Proof.Machine
end

