-- ==== Sys2Proof/Machine/Tables.lean ====
section
/-! DEFINITION. The constant tables and scalar constants (spec 10_state.md R21 to R28, 44_magic_multiply_digit_extractor.md
R153, R164, 45_wide_splitter.md R176). They are read-only and the same at all times (R28). -/

namespace Sys2Proof.Machine

/-- The character of a digit (00_scope.md R15): 0x30 + d. -/
def asciiDigit (d : Nat) : Byte := BitVec.ofNat 8 (0x30 + d)

/-- LUT by byte offset 0 .. 199 (R21): the tens character of entry i at 2*i, its units character at 2*i + 1. -/
def lut (off : Nat) : Byte :=
  if off % 2 = 0 then asciiDigit (off / 2 / 10) else asciiDigit (off / 2 % 10)

/-- The decimal logarithm estimate of a binary logarithm (41_digit_count_estimator.md R102), e(L) of R24. -/
def log10Estimate (l : Nat) : Nat := (l * 1233) >>> 12

/-- DCT32, the correction table of the 32-bit path (R24): entries 0 .. 31. -/
def dct32 (l : Nat) : Option (BitVec 64) :=
  if l = 0 then some (BitVec.ofNat 64 (2 ^ 32))
  else if l ≤ 29 then
    some (BitVec.ofNat 64 ((log10Estimate l + 2) * 2 ^ 32 - 10 ^ (log10Estimate l + 1)))
  else if l ≤ 31 then some (BitVec.ofNat 64 (10 * 2 ^ 32))
  else none

/-- PT, the threshold table of the wide path (R25): entry i is the natural 10^(i+1), i = 0 .. 38; 10^39 is not cut to 128
bits (41_digit_count_estimator.md R106). -/
def pt (i : Nat) : Option Nat := if i ≤ 38 then some (10 ^ (i + 1)) else none

/-- The multiplication of a band (R153): S, the right shift `sh = S - 32` and the multiplier M. -/
structure Magic where
  s : Nat
  sh : Nat
  mult : BitVec 64
deriving DecidableEq, Repr

/-- One row of BAND (R153): the digit count n, the bounds lower ≤ v < upper, the pair band p, the number k of digits after
the lead, and the multiplication, which bands 1 and 2 do not make. -/
structure BandRow where
  n : Nat
  lower : Nat
  upper : Nat
  p : Nat
  k : Nat
  magic : Option Magic
deriving DecidableEq, Repr

/-- The ten rows of BAND (R153). -/
def bandTable : List BandRow :=
  [⟨1, 0, 10, 0, 0, none⟩,
   ⟨2, 10, 100, 0, 0, none⟩,
   ⟨3, 100, 1000, 1, 2, some ⟨32, 0, 42949674⟩⟩,
   ⟨4, 1000, 10000, 1, 2, some ⟨32, 0, 42949673⟩⟩,
   ⟨5, 10000, 100000, 2, 4, some ⟨32, 0, 429498⟩⟩,
   ⟨6, 100000, 1000000, 2, 4, some ⟨32, 0, 429497⟩⟩,
   ⟨7, 1000000, 10000000, 3, 6, some ⟨47, 15, 140737490⟩⟩,
   ⟨8, 10000000, 100000000, 3, 6, some ⟨47, 15, 140737489⟩⟩,
   ⟨9, 100000000, 1000000000, 4, 8, some ⟨57, 25, 1441151882⟩⟩,
   ⟨10, 1000000000, 4294967296, 4, 8, some ⟨57, 25, 1441151881⟩⟩]

/-- `BAND[n]` for n = 1 .. 10. -/
def bandRow (n : Nat) : Option BandRow := bandTable.find? fun row => row.n == n

/-- The mask of the 32-bit fraction (44_magic_multiply_digit_extractor.md R157). -/
def fractionMask : BitVec 64 := 0xFFFFFFFF

/-- The multiplier of the fixed-width datapath (R164). -/
def fixed10Mult : BitVec 64 := 1441151881

/-- The shift of the fixed-width datapath (R164). -/
def fixed10Shift : Nat := 25

/-- The addend of the fixed-width datapath (R164). -/
def fixed10Addend : BitVec 64 := 1

/-- A value below this fits the 32-bit writer (45_wide_splitter.md R176). -/
def splitLimit : Nat := 2 ^ 32

/-- The radix of the lower chunks (45_wide_splitter.md R176, 90_conflicts.md C5). -/
def chunkRadix : Nat := 10 ^ 9

end Sys2Proof.Machine
end

