-- ==== Sys2Proof/Machine/Ops.lean ====
section
/-! DEFINITION. The named operations every command is made of: the byte memories, the accesses of the block, the store
primitives `put1` and `put2`, the cursor, the prologue (spec 30_encoding.md R78), the capacity check (60_exceptions.md R191,
R193) and the epilogue with its two arms (R195). The fault arm is the block's whole exception entry (R199); there is no
return from it (R200). -/

namespace Sys2Proof.Machine

/-- The answer of a step or of a part of one. -/
abbrev Answer := Host.Outcome State Fault Refusal

/-- Go on with `f` from the next state; a stop stays a stop. -/
def andThen (o : Answer) (f : State → Answer) : Answer :=
  match o with
  | .next s => f s
  | .fault r => .fault r
  | .refused r => .refused r

/-! ### Byte memories -/

/-- The byte at an offset, none where no value is listed. -/
def memRead : Memory → Nat → Option Byte
  | [], _ => none
  | (k, b) :: rest, off => if k = off then some b else memRead rest off

/-- A memory with one byte written, keeping the offsets in rising order. -/
def memWrite : Memory → Nat → Byte → Memory
  | [], off, b => [(off, b)]
  | (k, c) :: rest, off, b =>
    if off < k then (off, b) :: (k, c) :: rest
    else if off = k then (off, b) :: rest
    else (k, c) :: memWrite rest off b

/-- A memory with a run of bytes written from an offset up: the host's `BUF[a..b) <- bytes` (30_encoding.md R81). -/
def memFill (m : Memory) (off : Nat) : List Byte → Memory
  | [] => m
  | b :: rest => memFill (memWrite m off b) (off + 1) rest

/-- The canonical form: offsets strictly rising. An unlisted byte has no value, so no listed byte repeats one. -/
def Memory.wf : Memory → Bool
  | [] => true
  | [_] => true
  | (k, _) :: (k', c) :: rest => decide (k < k') && Memory.wf ((k', c) :: rest)

/-! ### The accesses of the block -/

/-- The bytes of a space: BUF or SCR. -/
def spaceMem (sp : Space) (s : State) : Memory :=
  match sp with
  | .buf => s.buf
  | .scr => s.scr

/-- The size of a space in bytes (20_memory.md R50): BUF has BLEN bytes, SCR has 40. -/
def spaceSize (sp : Space) (s : State) : Nat :=
  match sp with
  | .buf => s.blen
  | .scr => Config.scrLen

/-- The state with the transient registers replaced. -/
def State.withTr (s : State) (t : Transients) : State := { s with tr := t }

/-- The state with one access listed in the trace. -/
def State.logged (s : State) (a : Access) : State := { s with trace := s.trace ++ [a] }

/-- The state with one byte written to a space, the access listed. -/
def State.stored (s : State) (sp : Space) (off : Nat) (b : Byte) : State :=
  { s with
    buf := match sp with | .buf => memWrite s.buf off b | .scr => s.buf
    scr := match sp with | .buf => s.scr | .scr => memWrite s.scr off b
    trace := s.trace ++ [.write sp off b] }

/-- `MemWrite(S:off, 1, b)` (00_scope.md R14, 20_memory.md R57). -/
def store (sp : Space) (off : Nat) (b : Byte) (s : State) : Answer :=
  if off < spaceSize sp s then .next (s.stored sp off b) else .fault (.outOfRange sp off)

/-- `MemRead(S:off, 1)`, handing the byte on (00_scope.md R14, 20_memory.md R57). -/
def load (sp : Space) (off : Nat) (s : State) (k : Byte → State → Answer) : Answer :=
  if off < spaceSize sp s then
    match memRead (spaceMem sp s) off with
    | some b => k b (s.logged (.read sp off))
    | none => .fault (.noByte sp off)
  else .fault (.outOfRange sp off)

/-- `put1(S:off, d)`: store one digit (40_digit_pair_lut.md R92). -/
def put1 (sp : Space) (off d : Nat) (s : State) : Answer :=
  if d < 10 then store sp off (asciiDigit d) s else .fault (.notADigit d)

/-- `put2(S:off, i)`: store the pair of an index, the tens character first and at the lower offset (R93). -/
def put2 (sp : Space) (off i : Nat) (s : State) : Answer :=
  if i < 100 then andThen (store sp off (lut (2 * i)) s) (store sp (off + 1) (lut (2 * i + 1)))
  else .fault (.lutIndex i)

/-- `cur <- cur - k` (10_state.md R39: the cursor never leaves the buffer). -/
def decCur (k : Nat) (s : State) : Answer :=
  if k ≤ s.tr.cur then .next (s.withTr { s.tr with cur := s.tr.cur - k }) else .fault .cursorUnderflow

/-- `cur <- cur + k`. -/
def incCur (k : Nat) (s : State) : Answer := .next (s.withTr { s.tr with cur := s.tr.cur + k })

/-! ### Prologue -/

/-- Issue (30_encoding.md R78): the unit takes the command from CMD, sets STATUS.BUSY and clears STATUS.DONE. The accesses
listed from here on are this command's. -/
def State.issued (s : State) : State :=
  { s with cmd := none, status := statusWord false true (statusErr s.status), trace := [] }

/-- `v <- zext_128(VAL[W-1:0])` (R78). -/
def State.latched (s : State) (w : Width) : State :=
  s.withTr { s.tr with v := operand w s.val }

/-- The prologue of a legal command that reads VAL only (R76: DCOUNT). With VAL never written since reset the command is refused:
10_state.md R42 gives it no meaning and says that a model refuses it and must not assume zero. -/
def withValue (w : Width) (s : State) (k : State → Answer) : Answer :=
  if s.valWritten then k (s.issued.latched w) else .refused .valNotWritten

/-- The prologue of a legal command that reads VAL and BLEN. With either never written since reset the command is refused
(10_state.md R42). -/
def withValueAndLength (w : Width) (s : State) (k : State → Answer) : Answer :=
  if s.blenWritten then withValue w s k else .refused .blenNotWritten

/-! ### Completion -/

/-- The transient registers once a command has completed: free values, which nothing constrains (10_state.md R35, R40,
93_implementation_defined.md U9; log entry 3). -/
def leftoverTransients (count : Nat) : Transients where
  v := BitVec.ofNat 128 (Config.leftover count 0)
  cur := Config.leftover count 1
  n := BitVec.ofNat 6 (Config.leftover count 2)
  r := BitVec.ofNat 14 (Config.leftover count 3)
  pairHi := BitVec.ofNat 8 (Config.leftover count 4)
  pairLo := BitVec.ofNat 8 (Config.leftover count 5)
  log2 := BitVec.ofNat 7 (Config.leftover count 6)
  est := BitVec.ofNat 6 (Config.leftover count 7)
  prod := BitVec.ofNat 64 (Config.leftover count 8)
  lead := BitVec.ofNat 7 (Config.leftover count 9)
  chunk := #v[BitVec.ofNat 30 (Config.leftover count 10), BitVec.ofNat 30 (Config.leftover count 11),
    BitVec.ofNat 30 (Config.leftover count 12), BitVec.ofNat 30 (Config.leftover count 13)]
  m := BitVec.ofNat 3 (Config.leftover count 14)
  p := Config.leftover count 15
  sav := BitVec.ofNat 8 (Config.leftover count 16)

/-- Drop the transient registers and SCR (10_state.md R40): the registers hold free values and SCR no byte. -/
def State.dropped (s : State) : State :=
  { s with scr := [], tr := leftoverTransients s.freeCount, freeCount := s.freeCount + 1 }

/-- The success arm of the epilogue (60_exceptions.md R195): RLEN = n, DONE = 1, BUSY = 0, ERR = 0. -/
def State.completed (s : State) (n : Nat) : State :=
  { s.dropped with rlen := n, status := statusWord true false 0 }

/-- The fault arm of the epilogue (60_exceptions.md R195, R199): RLEN = 0, DONE = 1, BUSY = 0, ERR = code, and nothing
else: the state saved is ERR, and control goes back to the host. -/
def State.raised (s : State) (e : ErrCode) : State :=
  { s.dropped with rlen := 0, status := statusWord true false e.bits }

/-- The capacity check (60_exceptions.md R191), before the first access to BUF. An Unchecked command has no meaning where
BLEN is below the required length, and is refused (R193). -/
def capacity (mode : Mode) (need : Nat) (s : State) (k : State → Answer) : Answer :=
  if need ≤ s.blen then k s
  else
    match mode with
    | .checked => .next (s.raised .bufferTooSmall)
    | .unchecked => .refused .uncheckedCapacity

end Sys2Proof.Machine
end

