-- ==== Sys2Proof/Machine/HostPort.lean ====
section
/-! DEFINITION. The moves of the host (spec 10_state.md R30 to R36, 30_encoding.md R81, 70_reset_and_hazards.md R210 to
R216). -/

namespace Sys2Proof.Machine

/-- What the host gets when it reads a register (10_state.md R30): what the register holds, and none for CMD, which keeps no
readable value (R31). What a read of VAL or BLEN gives before the host has written it the spec does not say (R41): the number
held, which is 0 after reset (DESIGN CHOICE, log entry 2). -/
def hostRead (r : HostReg) (s : State) : Option Nat :=
  match r with
  | .cmd => none
  | .val => some s.val.toNat
  | .blen => some s.blen
  | .rlen => some s.rlen
  | .status => some s.status.toNat

/-- The moves allowed while STATUS.BUSY = 1: reading STATUS, and nothing else (70_reset_and_hazards.md R213, R216). -/
def HostMove.whileBusy : HostMove → Bool
  | .readReg .status => true
  | .readReg _ => false
  | .writeVal _ => false
  | .writeBlen _ => false
  | .writeBuf _ _ => false
  | .writeCmd _ => false
  | .writeStatus _ => false
  | .readBuf _ => false
  | .reset => false

/-- The reset input (10_state.md R41, 70_reset_and_hazards.md R210): every register of the block as in `State.reset`, the
transient registers free, BUF and the rest of the host's script left alone. -/
def State.hostReset (s : State) : State :=
  { State.reset with
    buf := s.buf
    script := s.script
    tr := leftoverTransients s.freeCount
    freeCount := s.freeCount + 1 }

/-- One move of the host, made while no command is pending (70_reset_and_hazards.md R213). -/
def hostMove (move : HostMove) (s : State) : Answer :=
  if statusBusy s.status && !move.whileBusy then .refused .hostWhileBusy
  else
    match move with
    | .writeVal v => .next { s with val := v, valWritten := true }
    | .writeBlen n => .next { s with blen := n, blenWritten := true }
    | .writeBuf off bytes => .next { s with buf := memFill s.buf off bytes }
    | .writeCmd c => .next { s with cmd := some c }
    | .writeStatus _ => .next s
    | .readReg .cmd => .refused .cmdRead
    | .readReg .val => .next s
    | .readReg .blen => .next s
    | .readReg .rlen => .next s
    | .readReg .status => .next s
    | .readBuf _ => .next s
    | .reset => .next s.hostReset

/-- The host's turn: its next move, or nothing where the script has ended (R222). -/
def hostTurn (s : State) : Answer :=
  match s.script with
  | [] => .next s
  | move :: rest => hostMove move { s with script := rest }

/-! ### Scripts (30_encoding.md R81) and the end of a run (R222) -/

/-- The expansion of `DIGIT_COUNT`, for a row of DCOUNT. -/
def countScript (i : Instr) (v : Value) : List HostMove := [.writeVal v, .writeCmd (encode i)]

/-- The expansion of `WRITE_DECIMAL`, `WRITE_FIXED10` and `PAIR`, for the row and mode they name. -/
def writeScript (i : Instr) (v : Value) (len : Nat) : List HostMove :=
  [.writeVal v, .writeBlen len, .writeCmd (encode i)]

/-- A run has ended: no statement is left, no command is pending and BUSY = 0 (R222). -/
def State.runEnded (s : State) : Bool := s.script.isEmpty && s.cmd.isNone && !statusBusy s.status

/-- The final state of a run, (VAL, BLEN, RLEN, STATUS, BUF[0..BLEN)) (R222). What the tuple holds for a VAL or BLEN never
written since reset the spec does not say (10_state.md R41): the number held, which is 0 after reset, and so BUF[0..0)
(DESIGN CHOICE, log entry 2). -/
def State.final (s : State) : Value × Nat × Nat × Byte × List (Option Byte) :=
  (s.val, s.blen, s.rlen, s.status, (List.range s.blen).map (memRead s.buf))

end Sys2Proof.Machine
end

