-- ==== Sys2Proof/Machine/Lutrd.lean ====
section
/-! DEFINITION. LUTRD (spec 40_digit_pair_lut.md R94). -/

namespace Sys2Proof.Machine

/-- LUTRD.U8 (R94): the index test of the prologue (30_encoding.md R77 f, R78) comes before the capacity check
(60_exceptions.md R198), then the pair of the entry goes to BUF[0..2). -/
def execLutrdU8 (mode : Mode) (s : State) : Answer :=
  withValueAndLength .w8 s fun s =>
    if 100 ≤ s.tr.v.toNat then .next (s.raised .illegalCommand)
    else capacity mode 2 s fun s => andThen (put2 .buf 0 s.tr.v.toNat s) fun s => .next (s.completed 2)

end Sys2Proof.Machine
end

