-- ==== Sys2Proof/Machine/Estimator.lean ====
section
/-! DEFINITION. The digit_count_estimator and DCOUNT (spec 41_digit_count_estimator.md R100 to R110). -/

namespace Sys2Proof.Machine

/-- `log2 <- bit_length(value | 1) - 1` (R101). -/
def setLog2 (s : State) : State :=
  s.withTr { s.tr with log2 := BitVec.ofNat 7 (s.tr.v ||| 1#128).toNat.log2 }

/-- The 32-bit path (R103, R107): `n <- (zext_64(value) + DCT32[log2]) >> 32`, the sum 64 bits wide. -/
def countNarrow (s : State) : Answer :=
  let s := setLog2 s
  match dct32 s.tr.log2.toNat with
  | some shift => .next (s.withTr { s.tr with n := ((s.tr.v.setWidth 64 + shift) >>> 32).setWidth 6 })
  | none => .fault (.tableIndex s.tr.log2.toNat)

/-- The 64- and 128-bit path (R105): the estimate, corrected by one comparison of naturals (R106). -/
def countWide (s : State) : Answer :=
  let s := setLog2 s
  let s := s.withTr { s.tr with est := BitVec.ofNat 6 (log10Estimate s.tr.log2.toNat) }
  match pt s.tr.est.toNat with
  | some threshold =>
    .next (s.withTr { s.tr with n := if threshold ≤ s.tr.v.toNat then s.tr.est + 2 else s.tr.est + 1 })
  | none => .fault (.tableIndex s.tr.est.toNat)

/-- `n <- digit_count(v, W)` (R104): the path depends on the width of the operation, never on the value. -/
def digitCount (w : Width) (s : State) : Answer :=
  match w with
  | .w8 | .w16 | .w32 => countNarrow s
  | .w64 | .w128 => countWide s

/-- DCOUNT at a width (R108). BLEN and BUF are not read; UNCHK set is IllegalCommand (30_encoding.md R77 e). -/
def dcount (w : Width) (mode : Mode) (s : State) : Answer :=
  match mode with
  | .checked => withValue w s fun s => andThen (digitCount w s) fun s => .next (s.completed s.tr.n.toNat)
  | .unchecked => .next (s.issued.raised .illegalCommand)

/-- DCOUNT.U8. -/
def execDcountU8 (mode : Mode) (s : State) : Answer := dcount .w8 mode s

/-- DCOUNT.U16. -/
def execDcountU16 (mode : Mode) (s : State) : Answer := dcount .w16 mode s

/-- DCOUNT.U32. -/
def execDcountU32 (mode : Mode) (s : State) : Answer := dcount .w32 mode s

/-- DCOUNT.U64. -/
def execDcountU64 (mode : Mode) (s : State) : Answer := dcount .w64 mode s

/-- DCOUNT.U128. -/
def execDcountU128 (mode : Mode) (s : State) : Answer := dcount .w128 mode s

end Sys2Proof.Machine
end

