-- ==== Sys2Proof/Machine/Naive.lean ====
section
/-! DEFINITION. The naive_divmod_writer, WRNX and WRNT (spec 42_naive_divmod_writer.md R120 to R126). -/

namespace Sys2Proof.Machine

/-- The division loop shared by both modes (R121); the first argument bounds the passes (70_reset_and_hazards.md R221). -/
def naiveLoop (sp : Space) : Nat → State → Answer
  | 0, _ => .fault .loopBound
  | passes + 1, s =>
    if 10 ≤ s.tr.v.toNat then
      let s := s.withTr { s.tr with r := (s.tr.v % 10).setWidth 14, v := s.tr.v / 10 }
      andThen (decCur 1 s) fun s =>
        andThen (put1 sp s.tr.cur s.tr.r.toNat s) fun s => naiveLoop sp passes s
    else andThen (decCur 1 s) fun s => put1 sp s.tr.cur s.tr.v.toNat s

/-- The copy of WRNT (R124): `count` bytes from SCR:cur+i to BUF:i, upward. -/
def copyLoop : Nat → Nat → State → Answer
  | 0, _, s => .next s
  | count + 1, i, s =>
    load .scr (s.tr.cur + i) s fun b s => andThen (store .buf i b s) fun s => copyLoop count (i + 1) s

/-- WRNX at a width (R123). -/
def wrnx (w : Width) (mode : Mode) (s : State) : Answer :=
  withValueAndLength w s fun s =>
    andThen (digitCount w s) fun s =>
      let n := s.tr.n.toNat
      capacity mode n s fun s =>
        andThen (naiveLoop .buf 39 (s.withTr { s.tr with cur := n })) fun s => .next (s.completed n)

/-- WRNT at a width (R124): the check comes after the scratch writes and before the first BUF write. -/
def wrnt (w : Width) (mode : Mode) (s : State) : Answer :=
  withValueAndLength w s fun s =>
    andThen (naiveLoop .scr 39 (s.withTr { s.tr with cur := Config.scrLen })) fun s =>
      let s := s.withTr { s.tr with n := BitVec.ofNat 6 (Config.scrLen - s.tr.cur) }
      let n := s.tr.n.toNat
      capacity mode n s fun s => andThen (copyLoop n 0 s) fun s => .next (s.completed n)

/-- WRNT.U8. -/
def execWrntU8 (mode : Mode) (s : State) : Answer := wrnt .w8 mode s

/-- WRNT.U16. -/
def execWrntU16 (mode : Mode) (s : State) : Answer := wrnt .w16 mode s

/-- WRNT.U32. -/
def execWrntU32 (mode : Mode) (s : State) : Answer := wrnt .w32 mode s

/-- WRNT.U64. -/
def execWrntU64 (mode : Mode) (s : State) : Answer := wrnt .w64 mode s

/-- WRNT.U128. -/
def execWrntU128 (mode : Mode) (s : State) : Answer := wrnt .w128 mode s

/-- WRNX.U8. -/
def execWrnxU8 (mode : Mode) (s : State) : Answer := wrnx .w8 mode s

/-- WRNX.U16. -/
def execWrnxU16 (mode : Mode) (s : State) : Answer := wrnx .w16 mode s

/-- WRNX.U32. -/
def execWrnxU32 (mode : Mode) (s : State) : Answer := wrnx .w32 mode s

/-- WRNX.U64. -/
def execWrnxU64 (mode : Mode) (s : State) : Answer := wrnx .w64 mode s

/-- WRNX.U128. -/
def execWrnxU128 (mode : Mode) (s : State) : Answer := wrnx .w128 mode s

end Sys2Proof.Machine
end

