-- ==== Sys2Proof/Machine/Paired.lean ====
section
/-! DEFINITION. The paired_digit_writer, WRP (spec 43_paired_digit_writer.md R135 to R142). -/

namespace Sys2Proof.Machine

/-- The two table offsets of a remainder of four digits (R138): the doubling comes after the division (90_conflicts.md C1). -/
def setPairs (s : State) : State :=
  s.withTr
    { s.tr with
      pairHi := (2 * (s.tr.r / 100)).setWidth 8
      pairLo := (2 * (s.tr.r % 100)).setWidth 8 }

/-- Phase 1 (R137), four digits a pass; the first argument bounds the passes (70_reset_and_hazards.md R221: nine, and the
exit test). -/
def pairedPhase1 : Nat → State → Answer
  | 0, _ => .fault .loopBound
  | passes + 1, s =>
    if 10000 ≤ s.tr.v.toNat then
      let s := setPairs (s.withTr { s.tr with r := (s.tr.v % 10000).setWidth 14, v := s.tr.v / 10000 })
      andThen (decCur 2 s) fun s =>
        andThen (put2 .buf s.tr.cur (s.tr.pairLo.toNat / 2) s) fun s =>
          andThen (decCur 2 s) fun s =>
            andThen (put2 .buf s.tr.cur (s.tr.pairHi.toNat / 2) s) fun s => pairedPhase1 passes s
    else .next s

/-- Phase 2 (R139), two digits a pass; at most one pass (R221), and the exit test. -/
def pairedPhase2 : Nat → State → Answer
  | 0, _ => .fault .loopBound
  | passes + 1, s =>
    if 100 ≤ s.tr.v.toNat then
      let s := s.withTr { s.tr with r := (s.tr.v % 100).setWidth 14, v := s.tr.v / 100 }
      andThen (decCur 2 s) fun s =>
        andThen (put2 .buf s.tr.cur s.tr.r.toNat s) fun s => pairedPhase2 passes s
    else .next s

/-- Phase 3 (R140): the most significant one or two digits. -/
def pairedPhase3 (s : State) : Answer :=
  if s.tr.v.toNat < 10 then andThen (decCur 1 s) fun s => put1 .buf s.tr.cur s.tr.v.toNat s
  else andThen (decCur 2 s) fun s => put2 .buf s.tr.cur s.tr.v.toNat s

/-- WRP at a width (R141). -/
def wrp (w : Width) (mode : Mode) (s : State) : Answer :=
  withValueAndLength w s fun s =>
    andThen (digitCount w s) fun s =>
      let n := s.tr.n.toNat
      capacity mode n s fun s =>
        andThen (pairedPhase1 10 (s.withTr { s.tr with cur := n })) fun s =>
          andThen (pairedPhase2 2 s) fun s => andThen (pairedPhase3 s) fun s => .next (s.completed n)

/-- WRP.U8. -/
def execWrpU8 (mode : Mode) (s : State) : Answer := wrp .w8 mode s

/-- WRP.U16. -/
def execWrpU16 (mode : Mode) (s : State) : Answer := wrp .w16 mode s

/-- WRP.U32. -/
def execWrpU32 (mode : Mode) (s : State) : Answer := wrp .w32 mode s

/-- WRP.U64. -/
def execWrpU64 (mode : Mode) (s : State) : Answer := wrp .w64 mode s

/-- WRP.U128. -/
def execWrpU128 (mode : Mode) (s : State) : Answer := wrp .w128 mode s

end Sys2Proof.Machine
end

