-- ==== Sys2Proof/Machine/Magic.lean ====
section
/-! DEFINITION. The magic_multiply_digit_extractor, WRM and WRF10 (spec 44_magic_multiply_digit_extractor.md R150 to R168).
All products are 64 bits wide (R155, R160). -/

namespace Sys2Proof.Machine

/-- The pair band of a value below 2^32 (R151). -/
def pairBand (v : Nat) : Nat :=
  if v < 10 ^ 2 then 0 else if v < 10 ^ 4 then 1 else if v < 10 ^ 6 then 2 else if v < 10 ^ 8 then 3 else 4

/-- The digit count of a value below 2^32 by the comparisons of R151 and R152. -/
def bandDigits (v : Nat) : Nat :=
  if v < 10 ^ (2 * pairBand v + 1) then 2 * pairBand v + 1 else 2 * pairBand v + 2

/-- The refinement steps of R157, each writing the next pair at the cursor. -/
def refineLoop : Nat → State → Answer
  | 0, s => .next s
  | steps + 1, s =>
    let s := s.withTr { s.tr with prod := (s.tr.prod &&& fractionMask) * 100 }
    andThen (put2 .buf s.tr.cur (s.tr.prod >>> 32).toNat s) fun s =>
      andThen (incCur 2 s) fun s => refineLoop steps s

/-- The lead and the refinements of bands 3 to 10 (R155 to R157). -/
def emitBand (n k : Nat) (magic : Magic) (v : Value) (s : State) : Answer :=
  let s := s.withTr { s.tr with prod := (v.setWidth 64 * magic.mult) >>> magic.sh }
  let s := s.withTr { s.tr with lead := (s.tr.prod >>> 32).setWidth 7 }
  andThen
    (if n % 2 = 1 then
      andThen (put1 .buf s.tr.cur s.tr.lead.toNat s) fun s => incCur 1 s
    else
      andThen (put2 .buf s.tr.cur s.tr.lead.toNat s) fun s => incCur 2 s)
    fun s => refineLoop (k / 2) s

/-- `magic_emit(base, v)` (R158): dec(v) at BUF:base and up, for v below 2^32; the cursor ends at base plus the number of
bytes written, which is what the procedure returns. -/
def magicEmit (base : Nat) (v : Value) (s : State) : Answer :=
  let s := s.withTr { s.tr with cur := base }
  if v.toNat < 100 then
    if v.toNat < 10 then andThen (put1 .buf s.tr.cur v.toNat s) fun s => incCur 1 s
    else andThen (put2 .buf s.tr.cur v.toNat s) fun s => incCur 2 s
  else
    match bandRow (bandDigits v.toNat) with
    | some ⟨n, _, _, _, k, some magic⟩ => emitBand n k magic v s
    | _ => .fault (.tableIndex (bandDigits v.toNat))

/-- The refinements of the fixed-width datapath (R164), each pair at its offset. -/
def fixedLoop : Nat → Nat → State → Answer
  | 0, _, s => .next s
  | steps + 1, off, s =>
    let s := s.withTr { s.tr with prod := (s.tr.prod &&& fractionMask) * 100 }
    andThen (put2 .buf off (s.tr.prod >>> 32).toNat s) fun s => fixedLoop steps (off + 2) s

/-- `fixed10_emit(base, v)` (R164): dec_fixed(v, 10) at BUF:base .. base+9, for v below 2^32. -/
def fixed10Emit (base : Nat) (v : BitVec 64) (s : State) : Answer :=
  let s := s.withTr { s.tr with prod := ((v * fixed10Mult) >>> fixed10Shift) + fixed10Addend }
  andThen (put2 .buf base (s.tr.prod >>> 32).toNat s) fun s => fixedLoop 4 (base + 2) s

/-- WRM at a width of at most 32 (R162). -/
def wrm (w : Width) (mode : Mode) (s : State) : Answer :=
  withValueAndLength w s fun s =>
    let s := s.withTr { s.tr with n := BitVec.ofNat 6 (bandDigits s.tr.v.toNat) }
    let n := s.tr.n.toNat
    capacity mode n s fun s => andThen (magicEmit 0 s.tr.v s) fun s => .next (s.completed n)

/-- WRM.U8. -/
def execWrmU8 (mode : Mode) (s : State) : Answer := wrm .w8 mode s

/-- WRM.U16. -/
def execWrmU16 (mode : Mode) (s : State) : Answer := wrm .w16 mode s

/-- WRM.U32. -/
def execWrmU32 (mode : Mode) (s : State) : Answer := wrm .w32 mode s

/-- WRF10.U32 (R165). -/
def execWrf10U32 (mode : Mode) (s : State) : Answer :=
  withValueAndLength .w32 s fun s =>
    capacity mode 10 s fun s =>
      andThen (fixed10Emit 0 (s.tr.v.setWidth 64) s) fun s => .next (s.completed 10)

end Sys2Proof.Machine
end

