-- ==== Sys2Proof/Machine/Wide.lean ====
section
/-! DEFINITION. The wide_splitter, WRW (spec 45_wide_splitter.md R175 to R184). -/

namespace Sys2Proof.Machine

/-- `chunk[m] <- v % 10^9 ; v <- v / 10^9 ; m <- m + 1` (R176). -/
def splitStep (s : State) : Answer :=
  if h : s.tr.m.toNat < 4 then
    .next (s.withTr
      { s.tr with
        chunk := s.tr.chunk.set s.tr.m.toNat (BitVec.ofNat 30 (s.tr.v.toNat % chunkRadix)) h
        v := BitVec.ofNat 128 (s.tr.v.toNat / chunkRadix)
        m := s.tr.m + 1 })
  else .fault .chunkOverflow

/-- The split loop (R176): afterwards `v` is the top chunk. The first argument bounds the passes (R177: four, and the exit
test). -/
def splitLoop : Nat → State → Answer
  | 0, _ => .fault .loopBound
  | passes + 1, s =>
    if splitLimit ≤ s.tr.v.toNat then andThen (splitStep s) fun s => splitLoop passes s else .next s

/-- `chunk[i]`. -/
def chunkAt (s : State) (i : Nat) : BitVec 30 := if h : i < 4 then s.tr.chunk[i] else 0

/-- One lower chunk (R180): save the boundary byte, write ten characters over it, restore it at once. -/
def stitch (i : Nat) (s : State) : Answer :=
  andThen (decCur 1 s) fun s =>
    let s := s.withTr { s.tr with p := s.tr.cur }
    load .buf s.tr.p s fun b s =>
      let s := s.withTr { s.tr with sav := b }
      andThen (fixed10Emit s.tr.p ((chunkAt s i).setWidth 64) s) fun s =>
        andThen (store .buf s.tr.p s.tr.sav s) fun s =>
          .next (s.withTr { s.tr with cur := s.tr.p + 10 })

/-- The stitching loop (R180), from the most significant lower chunk, `chunk[count - 1]`, down to `chunk[0]`. -/
def stitchLoop : Nat → State → Answer
  | 0, s => .next s
  | count + 1, s => andThen (stitch count s) fun s => stitchLoop count s

/-- WRW at a width of 64 or 128 (R182). -/
def wrw (w : Width) (mode : Mode) (s : State) : Answer :=
  withValueAndLength w s fun s =>
    andThen (splitLoop 5 (s.withTr { s.tr with m := 0 })) fun s =>
      let s := s.withTr { s.tr with n := BitVec.ofNat 6 (bandDigits s.tr.v.toNat + 9 * s.tr.m.toNat) }
      let n := s.tr.n.toNat
      capacity mode n s fun s =>
        andThen (magicEmit 0 s.tr.v s) fun s =>
          andThen (stitchLoop s.tr.m.toNat s) fun s => .next (s.completed n)

/-- WRW.U64. -/
def execWrwU64 (mode : Mode) (s : State) : Answer := wrw .w64 mode s

/-- WRW.U128. -/
def execWrwU128 (mode : Mode) (s : State) : Answer := wrw .w128 mode s

end Sys2Proof.Machine
end

