-- ==== Sys2Proof/Machine/Dispatch.lean ====
section
/-! DEFINITION. One arm per constructor of `Instr`, each one direct call of its meaning (spec 30_encoding.md R75, R78). -/

namespace Sys2Proof.Machine

def exec (i : Instr) (s : State) : Host.Outcome State Fault Refusal :=
  match i with
  | .lutrdU8 mode => Sys2Proof.Machine.execLutrdU8 mode s
  | .dcountU8 mode => Sys2Proof.Machine.execDcountU8 mode s
  | .dcountU16 mode => Sys2Proof.Machine.execDcountU16 mode s
  | .dcountU32 mode => Sys2Proof.Machine.execDcountU32 mode s
  | .dcountU64 mode => Sys2Proof.Machine.execDcountU64 mode s
  | .dcountU128 mode => Sys2Proof.Machine.execDcountU128 mode s
  | .wrntU8 mode => Sys2Proof.Machine.execWrntU8 mode s
  | .wrntU16 mode => Sys2Proof.Machine.execWrntU16 mode s
  | .wrntU32 mode => Sys2Proof.Machine.execWrntU32 mode s
  | .wrntU64 mode => Sys2Proof.Machine.execWrntU64 mode s
  | .wrntU128 mode => Sys2Proof.Machine.execWrntU128 mode s
  | .wrnxU8 mode => Sys2Proof.Machine.execWrnxU8 mode s
  | .wrnxU16 mode => Sys2Proof.Machine.execWrnxU16 mode s
  | .wrnxU32 mode => Sys2Proof.Machine.execWrnxU32 mode s
  | .wrnxU64 mode => Sys2Proof.Machine.execWrnxU64 mode s
  | .wrnxU128 mode => Sys2Proof.Machine.execWrnxU128 mode s
  | .wrpU8 mode => Sys2Proof.Machine.execWrpU8 mode s
  | .wrpU16 mode => Sys2Proof.Machine.execWrpU16 mode s
  | .wrpU32 mode => Sys2Proof.Machine.execWrpU32 mode s
  | .wrpU64 mode => Sys2Proof.Machine.execWrpU64 mode s
  | .wrpU128 mode => Sys2Proof.Machine.execWrpU128 mode s
  | .wrmU8 mode => Sys2Proof.Machine.execWrmU8 mode s
  | .wrmU16 mode => Sys2Proof.Machine.execWrmU16 mode s
  | .wrmU32 mode => Sys2Proof.Machine.execWrmU32 mode s
  | .wrf10U32 mode => Sys2Proof.Machine.execWrf10U32 mode s
  | .wrwU64 mode => Sys2Proof.Machine.execWrwU64 mode s
  | .wrwU128 mode => Sys2Proof.Machine.execWrwU128 mode s

end Sys2Proof.Machine
end

