-- ==== Sys2Proof/Machine/Unit.lean ====
section
/-! DEFINITION. The unit's turn: the whole of one command (spec 30_encoding.md R78). -/

namespace Sys2Proof.Machine

/-- Perform the command word `c`: decode it and run its meaning, or take the fault arm with IllegalCommand, which touches
neither VAL, BLEN nor BUF (60_exceptions.md R192; log entry 7). -/
def perform (c : CmdWord) (s : State) : Answer :=
  match decode c with
  | .legal i => exec i s
  | .illegal _ => .next (s.issued.raised .illegalCommand)

/-- The word the unit fetches: the command pending on CMD (10_state.md R31). -/
def fetched (s : State) : Option CmdWord := s.cmd

/-- `s` with the word put where the unit takes its next command: on CMD, the operand registers counted as written by the host
with the values they hold (70_reset_and_hazards.md R212; log entry 5). A command is 16 bits (30_encoding.md R79); bits above
`nbits` are 0. -/
def placeCommand (nbits w : Nat) (s : State) : State :=
  { s with cmd := some (BitVec.ofNat 16 (w % 2 ^ nbits)), valWritten := true, blenWritten := true }

end Sys2Proof.Machine
end

