-- ==== Sys2Proof/Machine/Step.lean ====
section
/-! DEFINITION. One step of the machine (spec 00_scope.md R7, R19, 20_memory.md R61): the unit's turn while a command is
pending on CMD, the host's turn otherwise. A command is one atomic step (10_state.md R36). -/

namespace Sys2Proof.Machine

/-- One step. -/
def step (s : State) : Host.Outcome State Fault Refusal :=
  match fetched s with
  | some c => perform c s
  | none => hostTurn s

/-- `s` with an instruction placed where `step` fetches its next one. -/
def State.withFetchWord (s : State) (nbits w : Nat) : State := placeCommand nbits w s

end Sys2Proof.Machine
end

