-- ==== Sys2Proof/Safety.lean ====
section
/-! DEFINITION. The terms the claims use: the decimal string of the spec (00_scope.md R13), what a command's required length
is (60_exceptions.md R191, R206), how a command may end (R194, R195), and the invariant of the machine. None of the meanings
uses a definition of this file. -/

namespace Sys2Proof

open Machine

/-! ### Decimal strings -/

/-- `digits v` with a bound on the number of divisions by ten. -/
def digitsWithin : Nat → Nat → Nat
  | 0, _ => 1
  | fuel + 1, v => if v < 10 then 1 else digitsWithin fuel (v / 10) + 1

/-- `digits(v)` (R13): the number of characters of the canonical decimal representation, 1 for 0. -/
def digits (v : Nat) : Nat := digitsWithin v v

/-- The digit at position `j` of the `n`-character decimal string of `v`, position 0 the most significant (R13). -/
def decDigit (v n j : Nat) : Nat := v / 10 ^ (n - 1 - j) % 10

/-- The character at position `j` of `dec(v)` (R13, R15). -/
def decByte (v j : Nat) : Byte := BitVec.ofNat 8 (0x30 + decDigit v (digits v) j)

/-- The character at position `j` of `dec_fixed(v, n)` (R13, R15). -/
def fixedByte (v n j : Nat) : Byte := BitVec.ofNat 8 (0x30 + decDigit v n j)

/-! ### The commands by width and by required length -/

/-- The width a row selects (30_encoding.md R72, R75). -/
def Instr.width : Instr → Width
  | .lutrdU8 _ => .w8
  | .dcountU8 _ => .w8
  | .dcountU16 _ => .w16
  | .dcountU32 _ => .w32
  | .dcountU64 _ => .w64
  | .dcountU128 _ => .w128
  | .wrntU8 _ => .w8
  | .wrntU16 _ => .w16
  | .wrntU32 _ => .w32
  | .wrntU64 _ => .w64
  | .wrntU128 _ => .w128
  | .wrnxU8 _ => .w8
  | .wrnxU16 _ => .w16
  | .wrnxU32 _ => .w32
  | .wrnxU64 _ => .w64
  | .wrnxU128 _ => .w128
  | .wrpU8 _ => .w8
  | .wrpU16 _ => .w16
  | .wrpU32 _ => .w32
  | .wrpU64 _ => .w64
  | .wrpU128 _ => .w128
  | .wrmU8 _ => .w8
  | .wrmU16 _ => .w16
  | .wrmU32 _ => .w32
  | .wrf10U32 _ => .w32
  | .wrwU64 _ => .w64
  | .wrwU128 _ => .w128

/-- The same row with the mode given (R73). -/
def Instr.withMode (i : Instr) (mode : Mode) : Instr :=
  match i with
  | .lutrdU8 _ => .lutrdU8 mode
  | .dcountU8 _ => .dcountU8 mode
  | .dcountU16 _ => .dcountU16 mode
  | .dcountU32 _ => .dcountU32 mode
  | .dcountU64 _ => .dcountU64 mode
  | .dcountU128 _ => .dcountU128 mode
  | .wrntU8 _ => .wrntU8 mode
  | .wrntU16 _ => .wrntU16 mode
  | .wrntU32 _ => .wrntU32 mode
  | .wrntU64 _ => .wrntU64 mode
  | .wrntU128 _ => .wrntU128 mode
  | .wrnxU8 _ => .wrnxU8 mode
  | .wrnxU16 _ => .wrnxU16 mode
  | .wrnxU32 _ => .wrnxU32 mode
  | .wrnxU64 _ => .wrnxU64 mode
  | .wrnxU128 _ => .wrnxU128 mode
  | .wrpU8 _ => .wrpU8 mode
  | .wrpU16 _ => .wrpU16 mode
  | .wrpU32 _ => .wrpU32 mode
  | .wrpU64 _ => .wrpU64 mode
  | .wrpU128 _ => .wrpU128 mode
  | .wrmU8 _ => .wrmU8 mode
  | .wrmU16 _ => .wrmU16 mode
  | .wrmU32 _ => .wrmU32 mode
  | .wrf10U32 _ => .wrf10U32 mode
  | .wrwU64 _ => .wrwU64 mode
  | .wrwU128 _ => .wrwU128 mode

/-- The value operand of a command in a state (30_encoding.md R76): the low W bits of VAL. -/
def valueOf (i : Instr) (s : State) : Nat := s.val.toNat % 2 ^ widthBits i.width

/-- The required length of a command on a value (60_exceptions.md R191, R206); DCOUNT has none, written 0. -/
def requiredLength (i : Instr) (v : Nat) : Nat :=
  match i with
  | .lutrdU8 _ => 2
  | .dcountU8 _ => 0
  | .dcountU16 _ => 0
  | .dcountU32 _ => 0
  | .dcountU64 _ => 0
  | .dcountU128 _ => 0
  | .wrntU8 _ => digits v
  | .wrntU16 _ => digits v
  | .wrntU32 _ => digits v
  | .wrntU64 _ => digits v
  | .wrntU128 _ => digits v
  | .wrnxU8 _ => digits v
  | .wrnxU16 _ => digits v
  | .wrnxU32 _ => digits v
  | .wrnxU64 _ => digits v
  | .wrnxU128 _ => digits v
  | .wrpU8 _ => digits v
  | .wrpU16 _ => digits v
  | .wrpU32 _ => digits v
  | .wrpU64 _ => digits v
  | .wrpU128 _ => digits v
  | .wrmU8 _ => digits v
  | .wrmU16 _ => digits v
  | .wrmU32 _ => digits v
  | .wrf10U32 _ => 10
  | .wrwU64 _ => digits v
  | .wrwU128 _ => digits v

/-- The one operand that makes a legal word illegal (30_encoding.md R77 f): an index of 100 or more on LUTRD. -/
def indexIllegal (i : Instr) (s : State) : Bool :=
  match i with
  | .lutrdU8 _ => decide (100 ≤ s.val.toNat % 256)
  | .dcountU8 _ => false
  | .dcountU16 _ => false
  | .dcountU32 _ => false
  | .dcountU64 _ => false
  | .dcountU128 _ => false
  | .wrntU8 _ => false
  | .wrntU16 _ => false
  | .wrntU32 _ => false
  | .wrntU64 _ => false
  | .wrntU128 _ => false
  | .wrnxU8 _ => false
  | .wrnxU16 _ => false
  | .wrnxU32 _ => false
  | .wrnxU64 _ => false
  | .wrnxU128 _ => false
  | .wrpU8 _ => false
  | .wrpU16 _ => false
  | .wrpU32 _ => false
  | .wrpU64 _ => false
  | .wrpU128 _ => false
  | .wrmU8 _ => false
  | .wrmU16 _ => false
  | .wrmU32 _ => false
  | .wrf10U32 _ => false
  | .wrwU64 _ => false
  | .wrwU128 _ => false

/-- The writers of a width whose text is `dec(v)` (30_encoding.md R84): WRNT, WRNX, WRP, and WRM or WRW. -/
def writersAt (w : Width) (mode : Mode) : List Instr :=
  match w with
  | .w8 => [.wrntU8 mode, .wrnxU8 mode, .wrpU8 mode, .wrmU8 mode]
  | .w16 => [.wrntU16 mode, .wrnxU16 mode, .wrpU16 mode, .wrmU16 mode]
  | .w32 => [.wrntU32 mode, .wrnxU32 mode, .wrpU32 mode, .wrmU32 mode]
  | .w64 => [.wrntU64 mode, .wrnxU64 mode, .wrpU64 mode, .wrwU64 mode]
  | .w128 => [.wrntU128 mode, .wrnxU128 mode, .wrpU128 mode, .wrwU128 mode]

/-! ### How a command ends -/

/-- The host has written both operand registers since reset (10_state.md R42, 70_reset_and_hazards.md R212). -/
def OperandsWritten (s : State) : Prop := s.valWritten = true ∧ s.blenWritten = true

/-- What no command changes (60_exceptions.md R195): the operand registers, and the host's script; the command is no longer
pending. -/
def KeepsHost (s t : State) : Prop :=
  t.val = s.val ∧ t.blen = s.blen ∧ t.valWritten = s.valWritten ∧ t.blenWritten = s.blenWritten ∧
    t.script = s.script ∧ t.cmd = none

/-- The success arm with a result of `n` bytes `text 0 .. text (n-1)` in BUF[0..n) (60_exceptions.md R194, R195): RLEN = n,
STATUS = 0x01, every byte of BUF at offset n or above as it was. -/
def EndsWithText (s t : State) (n : Nat) (text : Nat → Byte) : Prop :=
  t.rlen = n ∧ t.status = 0x01 ∧ (∀ j, j < n → memRead t.buf j = some (text j)) ∧
    (∀ j, n ≤ j → memRead t.buf j = memRead s.buf j) ∧ KeepsHost s t

/-- The fault arm (60_exceptions.md R194, R195, R204): RLEN = 0, STATUS as given, BUF as it was. -/
def EndsWithFault (s t : State) (status : Byte) : Prop :=
  t.rlen = 0 ∧ t.status = status ∧ t.buf = s.buf ∧ KeepsHost s t

/-! ### Accesses -/

/-- The space of an access. -/
def Machine.Access.space : Access → Space
  | .read sp _ => sp
  | .write sp _ _ => sp

/-- The offset of an access. -/
def Machine.Access.offset : Access → Nat
  | .read _ off => off
  | .write _ off _ => off

/-- A space's memory after one access. -/
def applyAccess (sp : Space) (m : Memory) : Access → Memory
  | .read _ _ => m
  | .write sp' off b => if sp' = sp then memWrite m off b else m

/-- A space's memory after a list of accesses, first one first. -/
def replay (sp : Space) (m : Memory) (l : List Access) : Memory := l.foldl (applyAccess sp) m

/-- The accesses to BUF of the most recent command. -/
def bufAccesses (s : State) : List Access := s.trace.filter fun a => a.space == .buf

/-- The accesses of WRP on `n` characters (43_paired_digit_writer.md R137, R139, R140): the pairs from the last two characters
downward, each with its first character first, and where `n` is odd the first character of the text alone. -/
def pairedStores (n : Nat) (text : Nat → Byte) : List Access :=
  ((List.range (n / 2)).flatMap fun k =>
    [.write .buf (n - 2 - 2 * k) (text (n - 2 - 2 * k)), .write .buf (n - 1 - 2 * k) (text (n - 1 - 2 * k))]) ++
    if n % 2 = 1 then [.write .buf 0 (text 0)] else []

/-! ### The wide split -/

/-- How many lower chunks of nine digits are split off until the rest is below 2^32 (45_wide_splitter.md R176), at most the
first argument. -/
def chunksWithin : Nat → Nat → Nat
  | 0, _ => 0
  | fuel + 1, v => if v < 2 ^ 32 then 0 else chunksWithin fuel (v / 10 ^ 9) + 1

/-- `m`, the number of lower chunks of a value (R176, R177). -/
def lowerChunks (v : Nat) : Nat := chunksWithin v v

/-- The top chunk of a value (R176). -/
def topChunk (v : Nat) : Nat := v / 10 ^ (9 * lowerChunks v)

/-- The accesses of WRW (45_wide_splitter.md R179, R180): the top chunk's `d` characters upward, then for each of `m` lower
chunks, at the boundary offset `p`, the read, the ten stores and the restoring store; `text` is the whole result. -/
def wideAccesses (d m : Nat) (text : Nat → Byte) : List Access :=
  ((List.range d).map fun j => .write .buf j (text j)) ++
    (List.range m).flatMap fun k =>
      let p := d + 9 * k - 1
      .read .buf p :: .write .buf p 0x30 ::
        ((List.range 9).map fun j => .write .buf (p + 1 + j) (text (p + 1 + j))) ++ [.write .buf p (text p)]

/-! ### The invariant -/

/-- What holds of every state between steps: BUF and SCR are in canonical form; STATUS is one of the four words of R36 and
R195, so BUSY = 0, the reserved bits are 0 and DONE and BUSY are never both 1; RLEN is at most 39 (10_state.md R34); and RLEN
is at least 1 exactly after a success (60_exceptions.md R199). -/
def StateInv (s : State) : Prop :=
  Memory.wf s.buf = true ∧ Memory.wf s.scr = true ∧
    (s.status = 0x00 ∨ s.status = 0x01 ∨ s.status = 0x05 ∨ s.status = 0x09) ∧
    s.rlen ≤ 39 ∧ (1 ≤ s.rlen ↔ s.status = 0x01)

/-- The lengths of a state fit LENW bits, and so do those its host will write (00_scope.md R10, 10_state.md R33, R34). -/
def FitsLenw (lenw : Nat) (s : State) : Prop :=
  s.blen < 2 ^ lenw ∧ s.rlen < 2 ^ lenw ∧ ∀ n, HostMove.writeBlen n ∈ s.script → n < 2 ^ lenw

end Sys2Proof
end

