-- ==== Sys2Proof/Certificates/Slice0/Obligations.lean ====
section
/-! DEFINITION. The statements for the provers. Each is a claim about every state and every operand it names; the terms they use
(`digits`, `decByte`, `EndsWithText`, `EndsWithFault`, `KeepsHost`, `requiredLength`, `StateInv`) are in Sys2Proof/Safety.lean. -/

section

open Sys2Proof Sys2Proof.Machine

/-! ### Reset and the turns of host and unit -/

/-- After reset nothing is pending, RLEN = 0, STATUS = 0x00, the host reads these two values, and VAL and BLEN count as never
written (70_reset_and_hazards.md R210, 10_state.md R41). -/
def Obligations.ResetLeavesIdleBlock : Prop :=
  State.reset.cmd = none ∧ State.reset.rlen = 0 ∧ State.reset.status = 0x00 ∧
    hostRead .rlen State.reset = some 0 ∧ hostRead .status State.reset = some 0 ∧
    State.reset.valWritten = false ∧ State.reset.blenWritten = false

/-- The reset input, at BUSY = 0: nothing pending, RLEN = 0, STATUS = 0x00, VAL and BLEN without a value, and BUF as it was
(R210, R211). -/
def Obligations.ResetInputKeepsBuffer : Prop :=
  ∀ s rest, s.cmd = none → statusBusy s.status = false → s.script = .reset :: rest →
    ∃ t, step s = .next t ∧ t.cmd = none ∧ t.rlen = 0 ∧ t.status = 0x00 ∧ t.valWritten = false ∧
      t.blenWritten = false ∧ t.buf = s.buf ∧ t.script = rest

/-- The invariant holds at reset. -/
def Obligations.InvariantAtReset : Prop := StateInv State.reset

/-- Every step keeps the invariant: canonical memories, STATUS one of 0x00, 0x01, 0x05 and 0x09, RLEN at most 39, and at least 1
exactly after a success (10_state.md R34, R36, 60_exceptions.md R195, R199). -/
def Obligations.StepKeepsInvariant : Prop :=
  ∀ s t, StateInv s → step s = .next t → StateInv t

/-- The lengths stay within LENW bits, for every LENW of at least 6 (00_scope.md R10, 10_state.md R33, R34). That they are
naturals is the model's choice, log entry 1. -/
def Obligations.StepKeepsLengthsInLenw : Prop :=
  ∀ lenw s t, 6 ≤ lenw → FitsLenw lenw s → step s = .next t → FitsLenw lenw t

/-- A step with a command pending runs the decoded instruction, and adds nothing to it; that host and unit take turns is read
from the spec, log entry 6. -/
def Obligations.StepRunsDecodedCommand : Prop :=
  ∀ s c i, s.cmd = some c → decode c = .legal i → step s = exec i s

/-- With nothing pending and no host move left the block is idle and nothing changes (70_reset_and_hazards.md R210, R222); that
such a step is a next state is the model's choice, log entry 5. -/
def Obligations.IdleStepChangesNothing : Prop :=
  ∀ s, s.cmd = none → s.script = [] → step s = .next s

/-- The host's writes at BUSY = 0 (10_state.md R32, R33, R36): VAL, BLEN and CMD take the word written, a write to STATUS
has no effect, and nothing else changes. Two clauses rest on the model's choices: that a word written to CMD stays pending
until the unit's step, which issues it and clears DONE (R31 and 30_encoding.md R78 issue it at the write), is log entry 6
(DEDUCED), and that BLEN takes any natural number is log entry 1 (DESIGN CHOICE). -/
def Obligations.HostWritesRegisters : Prop :=
  ∀ s rest, s.cmd = none → statusBusy s.status = false →
    (∀ v, s.script = .writeVal v :: rest →
      step s = .next { s with script := rest, val := v, valWritten := true }) ∧
    (∀ n, s.script = .writeBlen n :: rest →
      step s = .next { s with script := rest, blen := n, blenWritten := true }) ∧
    (∀ c, s.script = .writeCmd c :: rest → step s = .next { s with script := rest, cmd := some c }) ∧
    (∀ b, s.script = .writeStatus b :: rest → step s = .next { s with script := rest })

/-- A fill of BUF by the host writes its bytes and no other (30_encoding.md R81, 20_memory.md R51). -/
def Obligations.HostFillWritesItsBytes : Prop :=
  ∀ s rest off bytes, s.cmd = none → statusBusy s.status = false → s.script = .writeBuf off bytes :: rest →
    ∃ t, step s = .next t ∧
      (∀ a, memRead t.buf a = if off ≤ a ∧ a < off + bytes.length then bytes[a - off]? else memRead s.buf a) ∧
      t = { s with script := rest, buf := t.buf }

/-- While BUSY = 1 the host has no move but reading STATUS (70_reset_and_hazards.md R211, R213, R215, R216): each other move is
refused. A read of CMD is refused at any time (10_state.md R31). -/
def Obligations.ForbiddenHostMovesRefused : Prop :=
  (∀ s move rest, s.cmd = none → s.script = move :: rest → statusBusy s.status = true → move ≠ .readReg .status →
    step s = .refused .hostWhileBusy) ∧
  (∀ s rest, s.cmd = none → s.script = .readReg .cmd :: rest → statusBusy s.status = false →
    step s = .refused .cmdRead)

/-! ### Encoding -/

/-- Decoding and encoding agree in both directions: a word decodes to an instruction exactly when the instruction is well formed
and the word is its encoding (30_encoding.md R70 to R75, R77). -/
def Obligations.DecodeIsInverseOfEncode : Prop :=
  ∀ c i, decode c = .legal i ↔ WellFormed i ∧ encode i = c

/-- Words the spec writes out decode to the commands it says (30_encoding.md R75, R80). -/
def Obligations.PrintedWordsDecode : Prop :=
  decode 0x0025 = .legal (.wrpU32 .checked) ∧ decode 0x00A5 = .legal (.wrpU32 .unchecked) ∧
    decode 0x0042 = .legal (.dcountU128 .checked) ∧ decode 0x0038 = .legal (.wrwU64 .checked) ∧
    decode 0x0081 = .legal (.lutrdU8 .unchecked) ∧ decode 0x0027 = .legal (.wrf10U32 .checked) ∧
    decode 0x0000 = .illegal .opWidth ∧ decode 0x0125 = .illegal .reservedBits ∧
    decode 0x00A2 = .illegal .modeOnDcount

/-- The illegal words are those of cases (a) to (e) of 30_encoding.md R77, in terms of the bits of the word. -/
def Obligations.IllegalWordsAreThoseOfTheList : Prop :=
  ∀ c : CmdWord, (∃ why, decode c = .illegal why) ↔
    let op := c.toNat % 16
    let wsel := c.toNat / 16 % 8
    c.toNat / 256 ≠ 0 ∨ op = 0 ∨ 9 ≤ op ∨ 5 ≤ wsel ∨ (op = 1 ∧ wsel ≠ 0) ∨ (op = 6 ∧ 3 ≤ wsel) ∨
      (op = 7 ∧ wsel ≠ 2) ∨ (op = 8 ∧ wsel < 3) ∨ (op = 2 ∧ c.toNat / 128 % 2 = 1)

/-- An illegal word completes with IllegalCommand: RLEN = 0, STATUS = 0x09, BUF untouched, no access made (30_encoding.md R77,
60_exceptions.md R192, R195). That it does so where VAL or BLEN was never written is read from the spec, log entry 7; accesses
are those of `trace`, the model's own field, log entry 10. -/
def Obligations.IllegalWordTakesFaultArm : Prop :=
  ∀ s c why, s.cmd = some c → decode c = .illegal why →
    ∃ t, step s = .next t ∧ EndsWithFault s t 0x09 ∧ t.trace = []

/-! ### What each command does -/

/-- LUTRD of an index below 100 writes the two characters of its entry, in both modes, where BLEN is at least 2
(40_digit_pair_lut.md R91, R93, R94). The accesses are those of `trace`, the model's own field, log entry 10. -/
def Obligations.LutrdWritesTableEntry : Prop :=
  ∀ mode s, OperandsWritten s → s.val.toNat % 256 < 100 → 2 ≤ s.blen →
    ∃ t, exec (.lutrdU8 mode) s = .next t ∧ EndsWithText s t 2 (fixedByte (s.val.toNat % 256) 2) ∧
      t.trace = [.write .buf 0 (fixedByte (s.val.toNat % 256) 2 0), .write .buf 1 (fixedByte (s.val.toNat % 256) 2 1)]

/-- LUTRD of an index of 100 or more is IllegalCommand whatever BLEN is, in both modes (30_encoding.md R77 f, 60_exceptions.md
R192, R198). The accesses are those of `trace`, the model's own field, log entry 10. -/
def Obligations.LutrdIndexOutOfTableIsIllegal : Prop :=
  ∀ mode s, OperandsWritten s → 100 ≤ s.val.toNat % 256 →
    ∃ t, exec (.lutrdU8 mode) s = .next t ∧ EndsWithFault s t 0x09 ∧ t.trace = []

/-- DCOUNT at every width leaves the digit count in RLEN, between 1 and max_digits(W), whether or not BLEN was written, and
leaves BUF alone (41_digit_count_estimator.md R100). -/
def Obligations.DcountCountsDigits : Prop :=
  ∀ i ∈ [Instr.dcountU8 .checked, .dcountU16 .checked, .dcountU32 .checked, .dcountU64 .checked, .dcountU128 .checked],
    ∀ s, s.valWritten = true →
      ∃ t, exec i s = .next t ∧ t.rlen = digits (valueOf i s) ∧ 1 ≤ t.rlen ∧ t.rlen ≤ maxDigits i.width ∧
        t.status = 0x01 ∧ t.buf = s.buf ∧ KeepsHost s t

/-- DCOUNT with UNCHK set is IllegalCommand (30_encoding.md R77 e, 60_exceptions.md R192), also where VAL was never written: log
entries 7 and 8. -/
def Obligations.DcountWithModeIsIllegal : Prop :=
  ∀ i ∈ [Instr.dcountU8 .unchecked, .dcountU16 .unchecked, .dcountU32 .unchecked, .dcountU64 .unchecked,
      .dcountU128 .unchecked],
    ∀ s, ∃ t, exec i s = .next t ∧ EndsWithFault s t 0x09

/-- WRNX and WRNT at every width, in both modes, with BLEN at least digits(v): BUF[0..n) = dec(v), RLEN = n = digits(v), ERR =
0, every other byte of BUF unchanged (42_naive_divmod_writer.md R126). -/
def Obligations.NaiveWritersWriteDecimal : Prop :=
  ∀ mode, ∀ i ∈ [Instr.wrnxU8 mode, .wrnxU16 mode, .wrnxU32 mode, .wrnxU64 mode, .wrnxU128 mode,
      .wrntU8 mode, .wrntU16 mode, .wrntU32 mode, .wrntU64 mode, .wrntU128 mode],
    ∀ s, OperandsWritten s → digits (valueOf i s) ≤ s.blen →
      ∃ t, exec i s = .next t ∧ EndsWithText s t (digits (valueOf i s)) (decByte (valueOf i s))

/-- WRP at every width, in both modes: the same text, one store for each digit and no other access, pairs downward from offset
n - 1, the tens character of a pair first, and the last digit alone where n is odd (43_paired_digit_writer.md R137, R139, R140,
R141, R142). The accesses are those of `trace`, the model's own field, log entry 10. -/
def Obligations.PairedWriterWritesDecimal : Prop :=
  ∀ mode, ∀ i ∈ [Instr.wrpU8 mode, .wrpU16 mode, .wrpU32 mode, .wrpU64 mode, .wrpU128 mode],
    ∀ s, OperandsWritten s → digits (valueOf i s) ≤ s.blen →
      ∃ t, exec i s = .next t ∧ EndsWithText s t (digits (valueOf i s)) (decByte (valueOf i s)) ∧
        t.trace = pairedStores (digits (valueOf i s)) (decByte (valueOf i s))

/-- WRM at widths 8, 16 and 32, in both modes: the same text, stored at strictly increasing offsets, each once
(44_magic_multiply_digit_extractor.md R158, R162, R168). The accesses are those of `trace`, the model's own field, log entry 10. -/
def Obligations.MagicWriterWritesDecimalUpward : Prop :=
  ∀ mode, ∀ i ∈ [Instr.wrmU8 mode, .wrmU16 mode, .wrmU32 mode],
    ∀ s, OperandsWritten s → digits (valueOf i s) ≤ s.blen →
      ∃ t, exec i s = .next t ∧ EndsWithText s t (digits (valueOf i s)) (decByte (valueOf i s)) ∧
        t.trace = (List.range (digits (valueOf i s))).map fun j => .write .buf j (decByte (valueOf i s) j)

/-- WRF10 writes dec_fixed(v, 10), ten characters with leading zeros, in both modes, where BLEN is at least 10, the ten bytes at
increasing offsets, each once (44_magic_multiply_digit_extractor.md R163, R164, R165). The accesses are those of `trace`, the
model's own field, log entry 10. -/
def Obligations.FixedWriterWritesTenDigits : Prop :=
  ∀ mode s, OperandsWritten s → 10 ≤ s.blen →
    ∃ t, exec (.wrf10U32 mode) s = .next t ∧ EndsWithText s t 10 (fixedByte (s.val.toNat % 2 ^ 32) 10) ∧
      t.trace = (List.range 10).map fun j => .write .buf j (fixedByte (s.val.toNat % 2 ^ 32) 10 j)

/-- WRW at widths 64 and 128, in both modes: the same text; first the top chunk upward, then for each of the m lower chunks, at
p one below the text written so far, the read of the boundary byte, the ten stores '0' and nine digits from p upward, and the
restoring store at p (45_wide_splitter.md R179, R180); `digits(top) + 12 * m` accesses in all (R184), and for a value below
2^32 those of WRM alone (R183). The accesses are those of `trace`, the model's own field, log entry 10. -/
def Obligations.WideSplitterWritesDecimal : Prop :=
  ∀ mode, ∀ i ∈ [Instr.wrwU64 mode, .wrwU128 mode],
    ∀ s, OperandsWritten s → digits (valueOf i s) ≤ s.blen →
      ∃ t, exec i s = .next t ∧ EndsWithText s t (digits (valueOf i s)) (decByte (valueOf i s)) ∧
        t.trace = wideAccesses (digits (topChunk (valueOf i s))) (lowerChunks (valueOf i s)) (decByte (valueOf i s)) ∧
        t.trace.length = digits (topChunk (valueOf i s)) + 12 * lowerChunks (valueOf i s) ∧
        (valueOf i s < 2 ^ 32 →
          t.trace = (List.range (digits (valueOf i s))).map fun j => .write .buf j (decByte (valueOf i s) j))

/-- WRNX stores the digits at offsets n-1 down to 0, the units digit first, and touches nothing else (42_naive_divmod_writer.md
R121, R122, R123). The accesses are those of `trace`, the model's own field, log entry 10. -/
def Obligations.ExactNaiveWriterStoresDownward : Prop :=
  ∀ mode, ∀ i ∈ [Instr.wrnxU8 mode, .wrnxU16 mode, .wrnxU32 mode, .wrnxU64 mode, .wrnxU128 mode],
    ∀ s t, exec i s = .next t → t.status = 0x01 →
      t.trace = (List.range t.rlen).map fun k => .write .buf (t.rlen - 1 - k) (decByte (valueOf i s) (t.rlen - 1 - k))

/-- WRNT writes SCR downward from offset 39 and then copies SCR[40-n..40) to BUF[0..n) upward, one load and one store a byte
(42_naive_divmod_writer.md R124). The accesses are those of `trace`, the model's own field, log entry 10. -/
def Obligations.TempNaiveWriterCopiesScratch : Prop :=
  ∀ mode, ∀ i ∈ [Instr.wrntU8 mode, .wrntU16 mode, .wrntU32 mode, .wrntU64 mode, .wrntU128 mode],
    ∀ s t, exec i s = .next t → t.status = 0x01 →
      t.trace =
        ((List.range t.rlen).map fun k => .write .scr (39 - k) (decByte (valueOf i s) (t.rlen - 1 - k))) ++
        (List.range t.rlen).flatMap fun j =>
          [.read .scr (40 - t.rlen + j), .write .buf j (decByte (valueOf i s) j)]

/-! ### Faults, modes and refusals -/

/-- A Checked command that writes BUF, with BLEN below its required length, completes with BufferTooSmall: RLEN = 0, STATUS =
0x05, BUF as it was, and no access to BUF (60_exceptions.md R191, R194, R204). The accesses are those of `trace`, the model's
own field, log entry 10. -/
def Obligations.CheckedShortBufferTakesFaultArm : Prop :=
  ∀ i s, i.modeless = false → i.mode = .checked → OperandsWritten s → indexIllegal i s = false →
    s.blen < requiredLength i (valueOf i s) →
    ∃ t, exec i s = .next t ∧ EndsWithFault s t 0x05 ∧ bufAccesses t = []

/-- An Unchecked command with BLEN below its required length has no meaning and is refused (60_exceptions.md R193). -/
def Obligations.UncheckedShortBufferRefused : Prop :=
  ∀ i s, i.modeless = false → i.mode = .unchecked → OperandsWritten s → indexIllegal i s = false →
    s.blen < requiredLength i (valueOf i s) → exec i s = .refused .uncheckedCapacity

/-- With BLEN at least the required length an Unchecked command answers exactly what the Checked one answers: the same accesses
and the same state (60_exceptions.md R193). -/
def Obligations.UncheckedEqualsCheckedWithCapacity : Prop :=
  ∀ i s, i.modeless = false → requiredLength i (valueOf i s) ≤ s.blen →
    exec (i.withMode .unchecked) s = exec (i.withMode .checked) s

/-- A legal command that reads VAL or BLEN before the host has written it since reset is refused; DCOUNT needs VAL only
(10_state.md R42). For LUTRD of an index of 100 or more with BLEN unwritten this is read from the spec, log entry 9. -/
def Obligations.UnwrittenOperandRefused : Prop :=
  (∀ i s, i.modeless = false → ¬ OperandsWritten s →
    exec i s = .refused .valNotWritten ∨ exec i s = .refused .blenNotWritten) ∧
  (∀ i s, i.modeless = true → i.mode = .checked → s.valWritten = false → exec i s = .refused .valNotWritten) ∧
  (∀ i s, i.modeless = true → s.valWritten = true → ∃ t, exec i s = .next t)

/-- No command ever reaches one of the model's faults, and no step does: every access lies inside its space, every index inside
its table, the cursor never leaves the buffer and no loop exceeds its bound (20_memory.md R60, R53, 40_digit_pair_lut.md R96,
10_state.md R39, 70_reset_and_hazards.md R221). That the model stops there is its choice, log entry 11. -/
def Obligations.NothingEverFaults : Prop :=
  (∀ i s r, exec i s ≠ .fault r) ∧ (∀ s r, step s ≠ .fault r)

/-! ### Frames -/

/-- What every command leaves alone: the operand registers, the host's script, and every byte of BUF at offset RLEN or above;
all of BUF where it faults and where it is DCOUNT. It ends in one of the two arms (60_exceptions.md R194, R195, 20_memory.md
R60). -/
def Obligations.CommandsKeepEverythingElse : Prop :=
  ∀ i s t, exec i s = .next t →
    KeepsHost s t ∧ (∀ j, t.rlen ≤ j → memRead t.buf j = memRead s.buf j) ∧ (i.modeless = true → t.buf = s.buf) ∧
      ((t.status = 0x01 ∧ 1 ≤ t.rlen) ∨ ((t.status = 0x05 ∨ t.status = 0x09) ∧ t.rlen = 0 ∧ t.buf = s.buf))

/-- Every access of a command lies where the spec allows it: in BUF below the result length (so none at all where the command
faults), in SCR at offsets 1 to 39 and only for WRNT, and none for DCOUNT (20_memory.md R52, R60, R65,
41_digit_count_estimator.md R108). The accesses are those of `trace`, the model's own field, log entry 10. -/
def Obligations.AccessesStayInTheResult : Prop :=
  ∀ i s t, exec i s = .next t → ∀ a ∈ t.trace,
    i.modeless = false ∧ (a.space = .buf → a.offset < t.rlen) ∧
      (a.space = .scr → 1 ≤ a.offset ∧ a.offset < 40 ∧
        i.withMode .checked ∈ [Instr.wrntU8 .checked, .wrntU16 .checked, .wrntU32 .checked, .wrntU64 .checked, .wrntU128 .checked])

/-- A command reads only bytes it has itself written earlier, and only WRW reads BUF (20_memory.md R65). The accesses are those
of `trace`, the model's own field, log entry 10. -/
def Obligations.ReadsFollowOwnWrites : Prop :=
  ∀ i s t, exec i s = .next t → ∀ before sp off after, t.trace = before ++ .read sp off :: after →
    (∃ b, Access.write sp off b ∈ before) ∧
      (sp = .buf → i.withMode .checked ∈ [Instr.wrwU64 .checked, .wrwU128 .checked])

/-- BUF afterwards is BUF before with the listed stores made in order: the trace leaves nothing out (20_memory.md R57, R64). The
trace is the model's own field, log entry 10. -/
def Obligations.TraceExplainsBuffer : Prop :=
  ∀ i s t, exec i s = .next t → t.buf = replay .buf s.buf t.trace

/-! ### Whole-machine rules -/

/-- The outcome depends on the command, VAL and BLEN alone: two states that agree on those and on which of them the host has
written answer alike, with the same RLEN, STATUS and accesses (`trace`, log entry 10), whatever STATUS, RLEN, BUF, SCR and the
transient registers held before (10_state.md R37, R40, 20_memory.md R58, R65, 60_exceptions.md R204). -/
def Obligations.OutcomeDependsOnOperandsOnly : Prop :=
  ∀ i s₁ s₂, s₁.val = s₂.val → s₁.blen = s₂.blen → s₁.valWritten = s₂.valWritten → s₁.blenWritten = s₂.blenWritten →
    (∃ t₁ t₂, exec i s₁ = .next t₁ ∧ exec i s₂ = .next t₂ ∧ t₁.rlen = t₂.rlen ∧ t₁.status = t₂.status ∧
      t₁.trace = t₂.trace) ∨
    (∃ r, exec i s₁ = .refused r ∧ exec i s₂ = .refused r)

/-- The writers of a width agree byte for byte, in any two modes: WRNT, WRNX, WRP, and WRM or WRW leave the same BUF, RLEN and
STATUS (42_naive_divmod_writer.md R126, 43_paired_digit_writer.md R142, 44_magic_multiply_digit_extractor.md R168,
45_wide_splitter.md R184). -/
def Obligations.WritersOfAWidthAgree : Prop :=
  ∀ w mode mode', ∀ i ∈ writersAt w mode, ∀ j ∈ writersAt w mode', ∀ s, OperandsWritten s →
    Memory.wf s.buf = true → digits (valueOf i s) ≤ s.blen →
    ∃ t u, exec i s = .next t ∧ exec j s = .next u ∧ t.buf = u.buf ∧ t.rlen = u.rlen ∧ t.status = u.status

/-- Issuing the same command again with the same operands leaves the same BUF, RLEN and STATUS (20_memory.md R58). -/
def Obligations.ReissueLeavesSameResult : Prop :=
  ∀ i s t, Memory.wf s.buf = true → exec i s = .next t →
    ∃ u, exec i t = .next u ∧ u.buf = t.buf ∧ u.rlen = t.rlen ∧ u.status = t.status

/-- No leading zero: a writer of dec(v) leaves '0' at offset 0 only where the whole result is that one character (the property
of 95_test_vectors.md Q3; 42_naive_divmod_writer.md R126). -/
def Obligations.NoLeadingZero : Prop :=
  ∀ w mode, ∀ i ∈ writersAt w mode, ∀ s t, exec i s = .next t → t.status = 0x01 →
    memRead t.buf 0 = some 0x30 → t.rlen = 1 ∧ valueOf i s = 0

/-! ### The units -/

/-- `put2` leaves what two `put1` leave: tens then units, for every index below 100 (40_digit_pair_lut.md R97). -/
def Obligations.PairStoreIsTwoDigitStores : Prop :=
  ∀ sp off i s, i < 100 → put2 sp off i s = andThen (put1 sp off (i / 10) s) (put1 sp (off + 1) (i % 10))

/-- The division loop of the naive writer in either space: on a value of n = digits(v) digits it makes n stores, the units digit
first at offset cur - 1 and each further digit one below, it moves the cursor down by n, and it changes no other byte
(42_naive_divmod_writer.md R121, R122). The accesses are those of `trace`, the model's own field, log entry 10. -/
def Obligations.DivisionLoopMakesOneStorePerDigit : Prop :=
  ∀ sp s, digits s.tr.v.toNat ≤ s.tr.cur → s.tr.cur ≤ spaceSize sp s →
    ∃ t, naiveLoop sp 39 s = .next t ∧ t.tr.cur = s.tr.cur - digits s.tr.v.toNat ∧
      t.trace = s.trace ++ (List.range (digits s.tr.v.toNat)).map (fun k =>
        .write sp (s.tr.cur - 1 - k) (decByte s.tr.v.toNat (digits s.tr.v.toNat - 1 - k))) ∧
      (∀ k, k < digits s.tr.v.toNat →
        memRead (spaceMem sp t) (s.tr.cur - digits s.tr.v.toNat + k) = some (decByte s.tr.v.toNat k)) ∧
      (∀ sp' a, sp' ≠ sp ∨ a < s.tr.cur - digits s.tr.v.toNat ∨ s.tr.cur ≤ a →
        memRead (spaceMem sp' t) a = memRead (spaceMem sp' s) a)

/-- The split loop of WRW: it stops at the first chunk count that leaves the rest below 2^32, with at most four lower chunks, at
most two for a 64-bit value, each below 10^9, top at least 4 where there is a lower chunk, and value = top * 10^(9m) + the sum
of chunk[i] * 10^(9i) (45_wide_splitter.md R176, R177). -/
def Obligations.SplitLoopPartitionsValue : Prop :=
  ∀ s, s.tr.m = 0 →
    ∃ t, splitLoop 5 s = .next t ∧ t.tr.m.toNat = lowerChunks s.tr.v.toNat ∧ t.tr.v.toNat < 2 ^ 32 ∧ t.tr.m.toNat ≤ 4 ∧
      (s.tr.v.toNat < 2 ^ 64 → t.tr.m.toNat ≤ 2) ∧
      (∀ i, i < t.tr.m.toNat → (chunkAt t i).toNat < 10 ^ 9) ∧
      (1 ≤ t.tr.m.toNat → 4 ≤ t.tr.v.toNat) ∧
      s.tr.v.toNat = t.tr.v.toNat * 10 ^ (9 * t.tr.m.toNat) +
        ((List.range t.tr.m.toNat).map fun i => (chunkAt t i).toNat * 10 ^ (9 * i)).sum

/-- The stitching of one lower chunk (45_wide_splitter.md R180): the nine digits of the chunk stand behind the boundary byte, the
boundary byte is as it was, no other byte of BUF changes, and the cursor has moved up by nine; the accesses are one read of the
boundary byte, ten stores from it upward, and the store that restores it (listed in `trace`, log entry 10). -/
def Obligations.StitchKeepsBoundaryByte : Prop :=
  ∀ s i b, i < 4 → 1 ≤ s.tr.cur → s.tr.cur + 9 ≤ s.blen → (chunkAt s i).toNat < 10 ^ 9 →
    memRead s.buf (s.tr.cur - 1) = some b →
    ∃ t, stitch i s = .next t ∧ t.tr.cur = s.tr.cur + 9 ∧
      (∀ j, j < 9 → memRead t.buf (s.tr.cur + j) = some (fixedByte (chunkAt s i).toNat 9 j)) ∧
      (∀ a, a < s.tr.cur ∨ s.tr.cur + 9 ≤ a → memRead t.buf a = memRead s.buf a) ∧
      t.trace = s.trace ++ .read .buf (s.tr.cur - 1) ::
        ((List.range 10).map fun j => .write .buf (s.tr.cur - 1 + j) (fixedByte (chunkAt s i).toNat 10 j)) ++
          [.write .buf (s.tr.cur - 1) b]

/-! ### The host's reads -/

/-- A read by the host changes nothing: of a register but CMD or of BUF at BUSY = 0, and of STATUS at any time, which is the one
move allowed while BUSY = 1 (70_reset_and_hazards.md R213, R216). A read of RLEN or STATUS, and of VAL or BLEN once written,
gives what the register holds (10_state.md R30). -/
def Obligations.HostReadsChangeNothing : Prop :=
  (∀ s rest, s.cmd = none →
    (∀ r, statusBusy s.status = false → r ≠ .cmd → s.script = .readReg r :: rest →
      step s = .next { s with script := rest }) ∧
    (∀ off, statusBusy s.status = false → s.script = .readBuf off :: rest → step s = .next { s with script := rest }) ∧
    (s.script = .readReg .status :: rest → step s = .next { s with script := rest })) ∧
  (∀ s, hostRead .rlen s = some s.rlen ∧ hostRead .status s = some s.status.toNat ∧
    (s.valWritten = true → hostRead .val s = some s.val.toNat) ∧ (s.blenWritten = true → hostRead .blen s = some s.blen))

end
end

