-- ==== Sys2Proof/Laws/Decimal.lean ====
section
/-! SUPPORT. The arithmetic of decimal strings: `digits` is the count of 00_scope.md R13, and how digits move under division by
powers of ten. -/

namespace Sys2Proof

theorem digitsWithin_pos (fuel v : Nat) : 1 ≤ digitsWithin fuel v := by
  cases fuel with
  | zero => exact Nat.le_refl 1
  | succ k => simp only [digitsWithin]; split <;> omega

/-- Enough fuel is enough. -/
theorem digitsWithin_eq {fuel fuel' v : Nat} (h : v ≤ fuel) (h' : v ≤ fuel') :
    digitsWithin fuel v = digitsWithin fuel' v := by
  induction fuel generalizing fuel' v with
  | zero =>
    obtain rfl : v = 0 := by omega
    cases fuel' <;> simp [digitsWithin]
  | succ k ih =>
    cases fuel' with
    | zero =>
      obtain rfl : v = 0 := by omega
      simp [digitsWithin]
    | succ k' =>
      simp only [digitsWithin]
      split
      · rfl
      · rw [ih (fuel' := k') (by omega) (by omega)]

theorem digits_pos (v : Nat) : 1 ≤ digits v := digitsWithin_pos v v

theorem digits_of_lt_ten {v : Nat} (h : v < 10) : digits v = 1 := by
  unfold digits
  cases v with
  | zero => rfl
  | succ k => simp [digitsWithin, h]

/-- One digit fewer after a division by ten. -/
theorem digits_of_ten_le {v : Nat} (h : 10 ≤ v) : digits v = digits (v / 10) + 1 := by
  unfold digits
  cases v with
  | zero => omega
  | succ k =>
    simp only [digitsWithin]
    rw [if_neg (by omega), digitsWithin_eq (fuel' := (k + 1) / 10) (by omega) (Nat.le_refl _)]

/-- The upper bound of R13. -/
theorem lt_pow_digits (v : Nat) : v < 10 ^ digits v := by
  induction v using Nat.strong_induction_on with
  | _ v ih =>
    by_cases h : v < 10
    · simpa [digits_of_lt_ten h] using h
    · rw [digits_of_ten_le (by omega), Nat.pow_succ]
      have := ih (v / 10) (by omega)
      omega

/-- The lower bound of R13. -/
theorem pow_digits_le {v : Nat} (h : v ≠ 0) : 10 ^ (digits v - 1) ≤ v := by
  induction v using Nat.strong_induction_on with
  | _ v ih =>
    by_cases hv : v < 10
    · rw [digits_of_lt_ten hv]; simpa using Nat.one_le_iff_ne_zero.2 h
    · rw [digits_of_ten_le (by omega), Nat.add_sub_cancel]
      have := ih (v / 10) (by omega) (by omega)
      have hp := digits_pos (v / 10)
      obtain ⟨k, hk⟩ : ∃ k, digits (v / 10) = k + 1 := ⟨digits (v / 10) - 1, by omega⟩
      rw [hk] at this ⊢
      rw [Nat.add_sub_cancel] at this
      rw [Nat.pow_succ]
      omega

/-- `digits` is the only count with the bounds of R13. -/
theorem digits_eq_of_bounds {v n : Nat} (hlo : 10 ^ n ≤ v) (hhi : v < 10 ^ (n + 1)) : digits v = n + 1 := by
  have hv : v ≠ 0 := by have := Nat.pow_pos (n := n) (show 0 < 10 by omega); omega
  have h1 := pow_digits_le hv
  have h2 := lt_pow_digits v
  have hp := digits_pos v
  have h3 : digits v - 1 < n + 1 := (Nat.pow_lt_pow_iff_right (by omega : 1 < 10)).1 (lt_of_le_of_lt h1 hhi)
  have h4 : n < digits v := (Nat.pow_lt_pow_iff_right (by omega : 1 < 10)).1 (lt_of_le_of_lt hlo h2)
  omega

theorem digits_le_of_lt_pow {v n : Nat} (hn : 1 ≤ n) (h : v < 10 ^ n) : digits v ≤ n := by
  by_cases hv : v = 0
  · subst hv; rw [digits_of_lt_ten (by omega)]; exact hn
  · have h1 := pow_digits_le hv
    have := (Nat.pow_lt_pow_iff_right (by omega : 1 < 10)).1 (lt_of_le_of_lt h1 h)
    omega

/-- A 128-bit value has at most 39 digits (R9). -/
theorem digits_le_39 {v : Nat} (h : v < 2 ^ 128) : digits v ≤ 39 :=
  digits_le_of_lt_pow (by omega) (lt_trans h (by norm_num))

/-- Cutting `k` low digits off a value leaves `digits v - k` of them. -/
theorem digits_div_pow {v k : Nat} (h : k < digits v) : digits (v / 10 ^ k) = digits v - k := by
  by_cases hv : v = 0
  · subst hv; rw [digits_of_lt_ten (by omega)] at h; obtain rfl : k = 0 := by omega
    simp
  · have h1 := pow_digits_le hv
    have h2 := lt_pow_digits v
    have hp : 0 < 10 ^ k := Nat.pow_pos (by omega)
    obtain ⟨d, hd⟩ : ∃ d, digits v = k + d + 1 := ⟨digits v - k - 1, by omega⟩
    rw [hd] at h1 h2 ⊢
    have : digits (v / 10 ^ k) = d + 1 := by
      refine digits_eq_of_bounds ?_ ?_
      · rw [Nat.le_div_iff_mul_le hp, ← Nat.pow_add]; rwa [show d + k = k + d + 1 - 1 by omega]
      · rw [Nat.div_lt_iff_lt_mul hp, ← Nat.pow_add]; rwa [show d + 1 + k = k + d + 1 by omega]
    omega

theorem decDigit_lt (v n j : Nat) : decDigit v n j < 10 := Nat.mod_lt _ (by omega)

/-- The low digit of a string of `n + 1` digits. -/
theorem decDigit_last (v n : Nat) : decDigit v (n + 1) n = v % 10 := by simp [decDigit]

/-- The digits above the low one are those of the value divided by ten. -/
theorem decDigit_succ {v n j : Nat} (h : j < n) : decDigit v (n + 1) j = decDigit (v / 10) n j := by
  unfold decDigit
  rw [Nat.div_div_eq_div_mul, ← Nat.pow_succ']
  congr 3
  omega

/-- Position `j` of a string of `a + b` digits, in its upper part: a digit of the value above its `b` low digits. -/
theorem decDigit_upper {v a b j : Nat} (h : j < a) : decDigit v (a + b) j = decDigit (v / 10 ^ b) a j := by
  unfold decDigit
  rw [Nat.div_div_eq_div_mul, ← Nat.pow_add]
  congr 3
  omega

/-- Position `a + j` of a string of `a + b` digits, in its lower part: a digit of the `b` low digits. -/
theorem decDigit_lower {v a b j : Nat} (h : j < b) : decDigit v (a + b) (a + j) = decDigit (v % 10 ^ b) b j := by
  unfold decDigit
  have he : a + b - 1 - (a + j) = b - 1 - j := by omega
  rw [he]
  obtain ⟨c, rfl⟩ : ∃ c, b = c + (j + 1) := ⟨b - (j + 1), by omega⟩
  have hc : c + (j + 1) - 1 - j = c := by omega
  rw [hc, Nat.pow_add, Nat.mod_mul_right_div_self, Nat.pow_succ, Nat.mod_mul_left_mod]

end Sys2Proof
end

