-- ==== Sys2Proof/Laws/Fields.lean ====
section
/-! SUPPORT. The value operand as a number (30_encoding.md R76) and the fields of STATUS (10_state.md R36). -/

namespace Sys2Proof.Machine

theorem widthBits_le (w : Width) : widthBits w ≤ 128 := by cases w <;> decide

/-- The operand is VAL modulo 2^W. -/
theorem operand_toNat (w : Width) (val : Value) : (operand w val).toNat = val.toNat % 2 ^ widthBits w := by
  have h : 2 ^ widthBits w ≤ 2 ^ 128 := Nat.pow_le_pow_right (by omega) (widthBits_le w)
  have h2 : val.toNat % 2 ^ widthBits w < 2 ^ 128 :=
    lt_of_lt_of_le (Nat.mod_lt _ (Nat.pow_pos (by omega))) h
  rw [operand, BitVec.toNat_setWidth, BitVec.toNat_setWidth, Nat.mod_eq_of_lt h2]

theorem operand_lt (w : Width) (val : Value) : (operand w val).toNat < 2 ^ widthBits w := by
  rw [operand_toNat]; exact Nat.mod_lt _ (Nat.pow_pos (by omega))

@[simp] theorem statusDone_statusWord (d b : Bool) (e : BitVec 2) : statusDone (statusWord d b e) = d := by
  revert e; cases d <;> cases b <;> decide

@[simp] theorem statusBusy_statusWord (d b : Bool) (e : BitVec 2) : statusBusy (statusWord d b e) = b := by
  revert e; cases d <;> cases b <;> decide

@[simp] theorem statusErr_statusWord (d b : Bool) (e : BitVec 2) : statusErr (statusWord d b e) = e := by
  revert e; cases d <;> cases b <;> decide

@[simp] theorem statusReserved_statusWord (d b : Bool) (e : BitVec 2) : statusReserved (statusWord d b e) = 0 := by
  revert e; cases d <;> cases b <;> decide

/-- The three words a completion writes to STATUS (60_exceptions.md R195). -/
theorem statusWord_success : statusWord true false 0 = 0x01 := by decide

theorem statusWord_tooSmall : statusWord true false ErrCode.bufferTooSmall.bits = 0x05 := by decide

theorem statusWord_illegal : statusWord true false ErrCode.illegalCommand.bits = 0x09 := by decide

/-- The characters of R15, as the tables hold them. -/
theorem lut_even (i : Nat) : lut (2 * i) = asciiDigit (i / 10) := by simp [lut]

theorem lut_odd (i : Nat) : lut (2 * i + 1) = asciiDigit (i % 10) := by
  have h : (2 * i + 1) / 2 = i := by omega
  have h2 : ¬ (2 * i + 1) % 2 = 0 := by omega
  simp [lut, h]

end Sys2Proof.Machine
end

