-- ==== Sys2Proof/Laws/Memory.lean ====
section
/-! SUPPORT. The laws of the byte memories: a read after a write, the canonical form, and that canonical memories with the
same bytes are the same list. -/

namespace Sys2Proof.Machine

@[simp] theorem memRead_nil (off : Nat) : memRead [] off = none := rfl

/-- A read after a write: the written byte at its offset, every other byte as before. Holds of any list of cells. -/
theorem memRead_memWrite (m : Memory) (off a : Nat) (b : Byte) :
    memRead (memWrite m off b) a = if a = off then some b else memRead m a := by
  induction m with
  | nil => simp only [memWrite, memRead]; split <;> rename_i h <;> simp [h, eq_comm]
  | cons cell rest ih =>
    obtain ⟨k, c⟩ := cell
    simp only [memWrite]
    split
    · simp only [memRead]; grind
    · split
      · simp only [memRead]; grind
      · simp only [memRead, ih]; grind

@[simp] theorem memRead_memWrite_self (m : Memory) (off : Nat) (b : Byte) :
    memRead (memWrite m off b) off = some b := by simp [memRead_memWrite]

theorem memRead_memWrite_of_ne (m : Memory) {off a : Nat} (b : Byte) (h : a ≠ off) :
    memRead (memWrite m off b) a = memRead m a := by simp [memRead_memWrite, h]

/-- What a fill leaves: the run of bytes, every other byte as before. -/
theorem memRead_memFill (bytes : List Byte) :
    ∀ (m : Memory) (off a : Nat), memRead (memFill m off bytes) a =
      if off ≤ a ∧ a < off + bytes.length then bytes[a - off]? else memRead m a := by
  induction bytes with
  | nil =>
    intro m off a
    have : ¬ (off ≤ a ∧ a < off + ([] : List Byte).length) := by simp
    rw [if_neg this]; rfl
  | cons b rest ih =>
    intro m off a
    simp only [memFill, ih, memRead_memWrite, List.length_cons]
    by_cases h : a = off
    · subst h; simp
    · by_cases h1 : off + 1 ≤ a ∧ a < off + 1 + rest.length
      · have h2 : off ≤ a ∧ a < off + (rest.length + 1) := by omega
        have h3 : a - off = (a - (off + 1)) + 1 := by omega
        rw [if_pos h1, if_pos h2, h3, List.getElem?_cons_succ]
      · have h2 : ¬ (off ≤ a ∧ a < off + (rest.length + 1)) := by omega
        rw [if_neg h1, if_neg h, if_neg h2]

/-! ### The canonical form -/

/-- Every listed offset is above `k`. -/
def Memory.above (k : Nat) (m : Memory) : Prop := ∀ cell ∈ m, k < cell.1

theorem wf_cons (k : Nat) (b : Byte) (m : Memory) :
    Memory.wf ((k, b) :: m) = true ↔ m.above k ∧ Memory.wf m = true := by
  induction m generalizing k b with
  | nil => simp [Memory.wf, Memory.above]
  | cons cell rest ih =>
    obtain ⟨k', c⟩ := cell
    simp only [Memory.wf, Bool.and_eq_true, decide_eq_true_eq]
    constructor
    · rintro ⟨hk, hw⟩
      refine ⟨?_, hw⟩
      have ha := ((ih k' c).1 hw).1
      intro cell hcell
      rcases List.mem_cons.1 hcell with rfl | hr
      · exact hk
      · exact lt_trans hk (ha cell hr)
    · rintro ⟨ha, hw⟩
      exact ⟨ha (k', c) List.mem_cons_self, hw⟩

theorem above_memWrite {k : Nat} {m : Memory} (h : m.above k) {off : Nat} (hk : k < off) (b : Byte) :
    Memory.above k (memWrite m off b) := by
  induction m with
  | nil => intro cell hc; simp only [memWrite, List.mem_singleton] at hc; subst hc; exact hk
  | cons cell rest ih =>
    obtain ⟨k', c⟩ := cell
    have hr : Memory.above k rest := fun x hx => h x (List.mem_cons_of_mem _ hx)
    have h0 : k < k' := h (k', c) List.mem_cons_self
    simp only [memWrite]
    split
    · intro x hx
      rcases List.mem_cons.1 hx with rfl | hx
      · exact hk
      · exact h x hx
    · split
      · intro x hx
        rcases List.mem_cons.1 hx with rfl | hx
        · exact hk
        · exact hr x hx
      · intro x hx
        rcases List.mem_cons.1 hx with rfl | hx
        · exact h0
        · exact ih hr x hx

/-- A write keeps the canonical form. -/
theorem wf_memWrite {m : Memory} (h : Memory.wf m = true) (off : Nat) (b : Byte) :
    Memory.wf (memWrite m off b) = true := by
  induction m with
  | nil => rfl
  | cons cell rest ih =>
    obtain ⟨k, c⟩ := cell
    obtain ⟨ha, hw⟩ := (wf_cons k c rest).1 h
    simp only [memWrite]
    split
    · rename_i hlt
      refine (wf_cons _ _ _).2 ⟨?_, h⟩
      intro x hx
      rcases List.mem_cons.1 hx with rfl | hx
      · exact hlt
      · exact lt_trans hlt (ha x hx)
    · split
      · rename_i _ heq; subst heq; exact (wf_cons _ _ _).2 ⟨ha, hw⟩
      · exact (wf_cons _ _ _).2 ⟨above_memWrite ha (by omega) b, ih hw⟩

/-- A fill keeps the canonical form. -/
theorem wf_memFill (bytes : List Byte) :
    ∀ {m : Memory}, Memory.wf m = true → ∀ off, Memory.wf (memFill m off bytes) = true := by
  induction bytes with
  | nil => intro m h _; exact h
  | cons b rest ih => intro m h off; exact ih (wf_memWrite h off b) (off + 1)

theorem memRead_eq_none_of_above {k : Nat} {m : Memory} (h : m.above k) {a : Nat} (ha : a ≤ k) :
    memRead m a = none := by
  induction m with
  | nil => rfl
  | cons cell rest ih =>
    obtain ⟨k', c⟩ := cell
    have h0 : k < k' := h (k', c) List.mem_cons_self
    have hne : k' ≠ a := by omega
    simp only [memRead, if_neg hne]
    exact ih fun x hx => h x (List.mem_cons_of_mem _ hx)

/-- Canonical memories with the same bytes are the same list. -/
theorem Memory.ext_of_wf {m₁ m₂ : Memory} (h₁ : Memory.wf m₁ = true) (h₂ : Memory.wf m₂ = true)
    (h : ∀ a, memRead m₁ a = memRead m₂ a) : m₁ = m₂ := by
  induction m₁ generalizing m₂ with
  | nil =>
    cases m₂ with
    | nil => rfl
    | cons cell rest =>
      obtain ⟨k, c⟩ := cell
      have := h k
      simp [memRead] at this
  | cons cell rest ih =>
    obtain ⟨k, c⟩ := cell
    cases m₂ with
    | nil => have := h k; simp [memRead] at this
    | cons cell' rest' =>
      obtain ⟨k', c'⟩ := cell'
      obtain ⟨ha, hw⟩ := (wf_cons k c rest).1 h₁
      obtain ⟨ha', hw'⟩ := (wf_cons k' c' rest').1 h₂
      have hkk : k = k' := by
        rcases Nat.lt_trichotomy k k' with hlt | heq | hgt
        · have := h k
          simp [memRead, Nat.ne_of_gt hlt, memRead_eq_none_of_above ha' (Nat.le_of_lt hlt)] at this
        · exact heq
        · have := h k'
          simp [memRead, Nat.ne_of_gt hgt, memRead_eq_none_of_above ha (Nat.le_of_lt hgt)] at this
      subst hkk
      have hc : c = c' := by have := h k; simpa [memRead] using this
      subst hc
      congr 1
      refine ih hw hw' fun a => ?_
      by_cases hak : a = k
      · subst hak
        rw [memRead_eq_none_of_above ha (Nat.le_refl _), memRead_eq_none_of_above ha' (Nat.le_refl _)]
      · have := h a
        have hne : k ≠ a := fun e => hak e.symm
        simpa [memRead, hne] using this

end Sys2Proof.Machine
end

