-- ==== Sys2Proof/Laws/State.lean ====
section
/-! SUPPORT. One lemma per field per update of `State`, so that no later proof unfolds a record update. -/

namespace Sys2Proof.Machine

/-! ### `withTr` -/

@[simp] theorem withTr_val (s : State) (t : Transients) : (s.withTr t).val = s.val := rfl
@[simp] theorem withTr_blen (s : State) (t : Transients) : (s.withTr t).blen = s.blen := rfl
@[simp] theorem withTr_rlen (s : State) (t : Transients) : (s.withTr t).rlen = s.rlen := rfl
@[simp] theorem withTr_status (s : State) (t : Transients) : (s.withTr t).status = s.status := rfl
@[simp] theorem withTr_cmd (s : State) (t : Transients) : (s.withTr t).cmd = s.cmd := rfl
@[simp] theorem withTr_valWritten (s : State) (t : Transients) : (s.withTr t).valWritten = s.valWritten := rfl
@[simp] theorem withTr_blenWritten (s : State) (t : Transients) : (s.withTr t).blenWritten = s.blenWritten := rfl
@[simp] theorem withTr_buf (s : State) (t : Transients) : (s.withTr t).buf = s.buf := rfl
@[simp] theorem withTr_scr (s : State) (t : Transients) : (s.withTr t).scr = s.scr := rfl
@[simp] theorem withTr_tr (s : State) (t : Transients) : (s.withTr t).tr = t := rfl
@[simp] theorem withTr_script (s : State) (t : Transients) : (s.withTr t).script = s.script := rfl
@[simp] theorem withTr_trace (s : State) (t : Transients) : (s.withTr t).trace = s.trace := rfl
@[simp] theorem withTr_freeCount (s : State) (t : Transients) : (s.withTr t).freeCount = s.freeCount := rfl

/-! ### `logged` -/

@[simp] theorem logged_val (s : State) (a : Access) : (s.logged a).val = s.val := rfl
@[simp] theorem logged_blen (s : State) (a : Access) : (s.logged a).blen = s.blen := rfl
@[simp] theorem logged_rlen (s : State) (a : Access) : (s.logged a).rlen = s.rlen := rfl
@[simp] theorem logged_status (s : State) (a : Access) : (s.logged a).status = s.status := rfl
@[simp] theorem logged_cmd (s : State) (a : Access) : (s.logged a).cmd = s.cmd := rfl
@[simp] theorem logged_valWritten (s : State) (a : Access) : (s.logged a).valWritten = s.valWritten := rfl
@[simp] theorem logged_blenWritten (s : State) (a : Access) : (s.logged a).blenWritten = s.blenWritten := rfl
@[simp] theorem logged_buf (s : State) (a : Access) : (s.logged a).buf = s.buf := rfl
@[simp] theorem logged_scr (s : State) (a : Access) : (s.logged a).scr = s.scr := rfl
@[simp] theorem logged_tr (s : State) (a : Access) : (s.logged a).tr = s.tr := rfl
@[simp] theorem logged_script (s : State) (a : Access) : (s.logged a).script = s.script := rfl
@[simp] theorem logged_trace (s : State) (a : Access) : (s.logged a).trace = s.trace ++ [a] := rfl
@[simp] theorem logged_freeCount (s : State) (a : Access) : (s.logged a).freeCount = s.freeCount := rfl

/-! ### `stored` -/

@[simp] theorem stored_val (s : State) (sp : Space) (off : Nat) (b : Byte) : (s.stored sp off b).val = s.val := rfl
@[simp] theorem stored_blen (s : State) (sp : Space) (off : Nat) (b : Byte) : (s.stored sp off b).blen = s.blen := rfl
@[simp] theorem stored_rlen (s : State) (sp : Space) (off : Nat) (b : Byte) : (s.stored sp off b).rlen = s.rlen := rfl
@[simp] theorem stored_status (s : State) (sp : Space) (off : Nat) (b : Byte) : (s.stored sp off b).status = s.status := rfl
@[simp] theorem stored_cmd (s : State) (sp : Space) (off : Nat) (b : Byte) : (s.stored sp off b).cmd = s.cmd := rfl
@[simp] theorem stored_valWritten (s : State) (sp : Space) (off : Nat) (b : Byte) : (s.stored sp off b).valWritten = s.valWritten := rfl
@[simp] theorem stored_blenWritten (s : State) (sp : Space) (off : Nat) (b : Byte) : (s.stored sp off b).blenWritten = s.blenWritten := rfl
@[simp] theorem stored_tr (s : State) (sp : Space) (off : Nat) (b : Byte) : (s.stored sp off b).tr = s.tr := rfl
@[simp] theorem stored_script (s : State) (sp : Space) (off : Nat) (b : Byte) : (s.stored sp off b).script = s.script := rfl
@[simp] theorem stored_trace (s : State) (sp : Space) (off : Nat) (b : Byte) : (s.stored sp off b).trace = s.trace ++ [.write sp off b] := rfl
@[simp] theorem stored_freeCount (s : State) (sp : Space) (off : Nat) (b : Byte) : (s.stored sp off b).freeCount = s.freeCount := rfl
@[simp] theorem stored_buf_of_buf (s : State) (off : Nat) (b : Byte) : (s.stored .buf off b).buf = memWrite s.buf off b := rfl
@[simp] theorem stored_buf_of_scr (s : State) (off : Nat) (b : Byte) : (s.stored .scr off b).buf = s.buf := rfl
@[simp] theorem stored_scr_of_buf (s : State) (off : Nat) (b : Byte) : (s.stored .buf off b).scr = s.scr := rfl
@[simp] theorem stored_scr_of_scr (s : State) (off : Nat) (b : Byte) : (s.stored .scr off b).scr = memWrite s.scr off b := rfl

/-! ### `issued` -/

@[simp] theorem issued_val (s : State) : s.issued.val = s.val := rfl
@[simp] theorem issued_blen (s : State) : s.issued.blen = s.blen := rfl
@[simp] theorem issued_rlen (s : State) : s.issued.rlen = s.rlen := rfl
@[simp] theorem issued_status (s : State) : s.issued.status = statusWord false true (statusErr s.status) := rfl
@[simp] theorem issued_cmd (s : State) : s.issued.cmd = none := rfl
@[simp] theorem issued_valWritten (s : State) : s.issued.valWritten = s.valWritten := rfl
@[simp] theorem issued_blenWritten (s : State) : s.issued.blenWritten = s.blenWritten := rfl
@[simp] theorem issued_buf (s : State) : s.issued.buf = s.buf := rfl
@[simp] theorem issued_scr (s : State) : s.issued.scr = s.scr := rfl
@[simp] theorem issued_tr (s : State) : s.issued.tr = s.tr := rfl
@[simp] theorem issued_script (s : State) : s.issued.script = s.script := rfl
@[simp] theorem issued_trace (s : State) : s.issued.trace = [] := rfl
@[simp] theorem issued_freeCount (s : State) : s.issued.freeCount = s.freeCount := rfl

/-! ### `latched` -/

@[simp] theorem latched_val (s : State) (w : Width) : (s.latched w).val = s.val := rfl
@[simp] theorem latched_blen (s : State) (w : Width) : (s.latched w).blen = s.blen := rfl
@[simp] theorem latched_rlen (s : State) (w : Width) : (s.latched w).rlen = s.rlen := rfl
@[simp] theorem latched_status (s : State) (w : Width) : (s.latched w).status = s.status := rfl
@[simp] theorem latched_cmd (s : State) (w : Width) : (s.latched w).cmd = s.cmd := rfl
@[simp] theorem latched_valWritten (s : State) (w : Width) : (s.latched w).valWritten = s.valWritten := rfl
@[simp] theorem latched_blenWritten (s : State) (w : Width) : (s.latched w).blenWritten = s.blenWritten := rfl
@[simp] theorem latched_buf (s : State) (w : Width) : (s.latched w).buf = s.buf := rfl
@[simp] theorem latched_scr (s : State) (w : Width) : (s.latched w).scr = s.scr := rfl
@[simp] theorem latched_tr (s : State) (w : Width) : (s.latched w).tr = { s.tr with v := operand w s.val } := rfl
@[simp] theorem latched_script (s : State) (w : Width) : (s.latched w).script = s.script := rfl
@[simp] theorem latched_trace (s : State) (w : Width) : (s.latched w).trace = s.trace := rfl
@[simp] theorem latched_freeCount (s : State) (w : Width) : (s.latched w).freeCount = s.freeCount := rfl

/-! ### `dropped` -/

@[simp] theorem dropped_val (s : State) : s.dropped.val = s.val := rfl
@[simp] theorem dropped_blen (s : State) : s.dropped.blen = s.blen := rfl
@[simp] theorem dropped_rlen (s : State) : s.dropped.rlen = s.rlen := rfl
@[simp] theorem dropped_status (s : State) : s.dropped.status = s.status := rfl
@[simp] theorem dropped_cmd (s : State) : s.dropped.cmd = s.cmd := rfl
@[simp] theorem dropped_valWritten (s : State) : s.dropped.valWritten = s.valWritten := rfl
@[simp] theorem dropped_blenWritten (s : State) : s.dropped.blenWritten = s.blenWritten := rfl
@[simp] theorem dropped_buf (s : State) : s.dropped.buf = s.buf := rfl
@[simp] theorem dropped_scr (s : State) : s.dropped.scr = [] := rfl
@[simp] theorem dropped_tr (s : State) : s.dropped.tr = leftoverTransients s.freeCount := rfl
@[simp] theorem dropped_script (s : State) : s.dropped.script = s.script := rfl
@[simp] theorem dropped_trace (s : State) : s.dropped.trace = s.trace := rfl
@[simp] theorem dropped_freeCount (s : State) : s.dropped.freeCount = s.freeCount + 1 := rfl

/-! ### `completed` -/

@[simp] theorem completed_val (s : State) (n : Nat) : (s.completed n).val = s.val := rfl
@[simp] theorem completed_blen (s : State) (n : Nat) : (s.completed n).blen = s.blen := rfl
@[simp] theorem completed_rlen (s : State) (n : Nat) : (s.completed n).rlen = n := rfl
@[simp] theorem completed_status (s : State) (n : Nat) : (s.completed n).status = 0x01 := rfl
@[simp] theorem completed_cmd (s : State) (n : Nat) : (s.completed n).cmd = s.cmd := rfl
@[simp] theorem completed_valWritten (s : State) (n : Nat) : (s.completed n).valWritten = s.valWritten := rfl
@[simp] theorem completed_blenWritten (s : State) (n : Nat) : (s.completed n).blenWritten = s.blenWritten := rfl
@[simp] theorem completed_buf (s : State) (n : Nat) : (s.completed n).buf = s.buf := rfl
@[simp] theorem completed_scr (s : State) (n : Nat) : (s.completed n).scr = [] := rfl
@[simp] theorem completed_tr (s : State) (n : Nat) : (s.completed n).tr = leftoverTransients s.freeCount := rfl
@[simp] theorem completed_script (s : State) (n : Nat) : (s.completed n).script = s.script := rfl
@[simp] theorem completed_trace (s : State) (n : Nat) : (s.completed n).trace = s.trace := rfl
@[simp] theorem completed_freeCount (s : State) (n : Nat) : (s.completed n).freeCount = s.freeCount + 1 := rfl

/-! ### `raised` -/

@[simp] theorem raised_val (s : State) (e : ErrCode) : (s.raised e).val = s.val := rfl
@[simp] theorem raised_blen (s : State) (e : ErrCode) : (s.raised e).blen = s.blen := rfl
@[simp] theorem raised_rlen (s : State) (e : ErrCode) : (s.raised e).rlen = 0 := rfl
@[simp] theorem raised_status (s : State) (e : ErrCode) : (s.raised e).status = statusWord true false e.bits := rfl
@[simp] theorem raised_cmd (s : State) (e : ErrCode) : (s.raised e).cmd = s.cmd := rfl
@[simp] theorem raised_valWritten (s : State) (e : ErrCode) : (s.raised e).valWritten = s.valWritten := rfl
@[simp] theorem raised_blenWritten (s : State) (e : ErrCode) : (s.raised e).blenWritten = s.blenWritten := rfl
@[simp] theorem raised_buf (s : State) (e : ErrCode) : (s.raised e).buf = s.buf := rfl
@[simp] theorem raised_scr (s : State) (e : ErrCode) : (s.raised e).scr = [] := rfl
@[simp] theorem raised_tr (s : State) (e : ErrCode) : (s.raised e).tr = leftoverTransients s.freeCount := rfl
@[simp] theorem raised_script (s : State) (e : ErrCode) : (s.raised e).script = s.script := rfl
@[simp] theorem raised_trace (s : State) (e : ErrCode) : (s.raised e).trace = s.trace := rfl
@[simp] theorem raised_freeCount (s : State) (e : ErrCode) : (s.raised e).freeCount = s.freeCount + 1 := rfl

/-! ### `hostReset` -/

@[simp] theorem hostReset_val (s : State) : s.hostReset.val = 0 := rfl
@[simp] theorem hostReset_blen (s : State) : s.hostReset.blen = 0 := rfl
@[simp] theorem hostReset_rlen (s : State) : s.hostReset.rlen = 0 := rfl
@[simp] theorem hostReset_status (s : State) : s.hostReset.status = 0 := rfl
@[simp] theorem hostReset_cmd (s : State) : s.hostReset.cmd = none := rfl
@[simp] theorem hostReset_valWritten (s : State) : s.hostReset.valWritten = false := rfl
@[simp] theorem hostReset_blenWritten (s : State) : s.hostReset.blenWritten = false := rfl
@[simp] theorem hostReset_buf (s : State) : s.hostReset.buf = s.buf := rfl
@[simp] theorem hostReset_scr (s : State) : s.hostReset.scr = [] := rfl
@[simp] theorem hostReset_tr (s : State) : s.hostReset.tr = leftoverTransients s.freeCount := rfl
@[simp] theorem hostReset_script (s : State) : s.hostReset.script = s.script := rfl
@[simp] theorem hostReset_trace (s : State) : s.hostReset.trace = [] := rfl
@[simp] theorem hostReset_freeCount (s : State) : s.hostReset.freeCount = s.freeCount + 1 := rfl

end Sys2Proof.Machine
end

