-- ==== Sys2Proof/Laws/Ops.lean ====
section
/-! SUPPORT. What the shared operations can do. `Body l s t` says once everything a part of a command may do between its
prologue and its epilogue: it changes the transient registers, lists the accesses `l`, and BUF and SCR are what replaying `l`
makes of them. Each operation has its equation where it succeeds (`_ok`) and its inversion (`_body`). -/

namespace Sys2Proof.Machine

/-! ### `andThen` -/

@[simp] theorem andThen_next (s : State) (f : State → Answer) : andThen (.next s) f = f s := rfl

@[simp] theorem andThen_fault (r : Fault) (f : State → Answer) : andThen (.fault r) f = .fault r := rfl

@[simp] theorem andThen_refused (r : Refusal) (f : State → Answer) : andThen (.refused r) f = .refused r := rfl

theorem andThen_eq_next {o : Answer} {f : State → Answer} {t : State} :
    andThen o f = .next t ↔ ∃ u, o = .next u ∧ f u = .next t := by cases o <;> simp

theorem andThen_eq_fault {o : Answer} {f : State → Answer} {r : Fault} :
    andThen o f = .fault r ↔ o = .fault r ∨ ∃ u, o = .next u ∧ f u = .fault r := by cases o <;> simp

theorem andThen_eq_refused {o : Answer} {f : State → Answer} {r : Refusal} :
    andThen o f = .refused r ↔ o = .refused r ∨ ∃ u, o = .next u ∧ f u = .refused r := by cases o <;> simp

/-! ### Replaying accesses -/

@[simp] theorem replay_nil (sp : Space) (m : Memory) : replay sp m [] = m := rfl

theorem replay_append (sp : Space) (m : Memory) (l l' : List Access) :
    replay sp m (l ++ l') = replay sp (replay sp m l) l' := List.foldl_append ..

theorem wf_replay (sp : Space) (l : List Access) :
    ∀ {m : Memory}, Memory.wf m = true → Memory.wf (replay sp m l) = true := by
  induction l with
  | nil => intro m h; exact h
  | cons a rest ih =>
    intro m h
    refine ih ?_
    cases a with
    | read sp' off => exact h
    | write sp' off b => simp only [applyAccess]; split; exacts [wf_memWrite h off b, h]

/-! ### The body of a command -/

/-- Between prologue and epilogue a command only changes transient registers and makes accesses. -/
structure Body (l : List Access) (s t : State) : Prop where
  val : t.val = s.val
  blen : t.blen = s.blen
  rlen : t.rlen = s.rlen
  status : t.status = s.status
  cmd : t.cmd = s.cmd
  valWritten : t.valWritten = s.valWritten
  blenWritten : t.blenWritten = s.blenWritten
  script : t.script = s.script
  freeCount : t.freeCount = s.freeCount
  trace : t.trace = s.trace ++ l
  buf : t.buf = replay .buf s.buf l
  scr : t.scr = replay .scr s.scr l

theorem Body.refl (s : State) : Body [] s s := by constructor <;> simp

theorem Body.trans {l l' : List Access} {s t u : State} (h : Body l s t) (h' : Body l' t u) :
    Body (l ++ l') s u where
  val := h'.val.trans h.val
  blen := h'.blen.trans h.blen
  rlen := h'.rlen.trans h.rlen
  status := h'.status.trans h.status
  cmd := h'.cmd.trans h.cmd
  valWritten := h'.valWritten.trans h.valWritten
  blenWritten := h'.blenWritten.trans h.blenWritten
  script := h'.script.trans h.script
  freeCount := h'.freeCount.trans h.freeCount
  trace := by rw [h'.trace, h.trace, List.append_assoc]
  buf := by rw [h'.buf, h.buf, replay_append]
  scr := by rw [h'.scr, h.scr, replay_append]

theorem body_withTr (s : State) (t : Transients) : Body [] s (s.withTr t) := by constructor <;> simp

theorem body_logged_read (s : State) (sp : Space) (off : Nat) :
    Body [.read sp off] s (s.logged (.read sp off)) := by constructor <;> simp [replay, applyAccess]

theorem body_stored (s : State) (sp : Space) (off : Nat) (b : Byte) :
    Body [.write sp off b] s (s.stored sp off b) := by
  constructor <;> cases sp <;> simp [replay, applyAccess]

/-- Changing transient registers first adds no access. -/
theorem Body.after_withTr {l : List Access} {s u : State} {t : Transients} (h : Body l (s.withTr t) u) : Body l s u := by
  have := (body_withTr s t).trans h
  simpa using this

theorem Body.spaceSize {l : List Access} {s t : State} (h : Body l s t) (sp : Space) :
    spaceSize sp t = Machine.spaceSize sp s := by cases sp <;> simp [Machine.spaceSize, h.blen]

theorem Body.spaceMem {l : List Access} {s t : State} (h : Body l s t) (sp : Space) :
    spaceMem sp t = replay sp (Machine.spaceMem sp s) l := by cases sp <;> simp [Machine.spaceMem, h.buf, h.scr]

/-! ### Accesses -/

theorem store_ok {sp : Space} {off : Nat} {s : State} (h : off < spaceSize sp s) (b : Byte) :
    store sp off b s = .next (s.stored sp off b) := by simp [store, h]

/-- All a store can do. -/
theorem store_eq_next {sp : Space} {off : Nat} {b : Byte} {s t : State} (h : store sp off b s = .next t) :
    off < spaceSize sp s ∧ t = s.stored sp off b := by
  unfold store at h; split at h
  · exact ⟨‹_›, by simpa using h.symm⟩
  · simp at h

theorem store_body {sp : Space} {off : Nat} {b : Byte} {s t : State} (h : store sp off b s = .next t) :
    Body [.write sp off b] s t ∧ t.tr = s.tr := by
  obtain ⟨-, rfl⟩ := store_eq_next h; exact ⟨body_stored .., rfl⟩

theorem load_ok {sp : Space} {off : Nat} {s : State} {b : Byte} (h : off < spaceSize sp s)
    (hb : memRead (spaceMem sp s) off = some b) (k : Byte → State → Answer) :
    load sp off s k = k b (s.logged (.read sp off)) := by simp [load, h, hb]

/-- All a load can do. -/
theorem load_eq_next {sp : Space} {off : Nat} {s t : State} {k : Byte → State → Answer} (h : load sp off s k = .next t) :
    off < spaceSize sp s ∧ ∃ b, memRead (spaceMem sp s) off = some b ∧ k b (s.logged (.read sp off)) = .next t := by
  unfold load at h; split at h
  · refine ⟨‹_›, ?_⟩
    split at h
    · exact ⟨_, ‹_›, h⟩
    · simp at h
  · simp at h

theorem put1_ok {sp : Space} {off d : Nat} {s : State} (hd : d < 10) (h : off < spaceSize sp s) :
    put1 sp off d s = .next (s.stored sp off (asciiDigit d)) := by simp [put1, hd, store_ok h]

/-- All `put1` can do. -/
theorem put1_eq_next {sp : Space} {off d : Nat} {s t : State} (h : put1 sp off d s = .next t) :
    d < 10 ∧ off < spaceSize sp s ∧ t = s.stored sp off (asciiDigit d) := by
  unfold put1 at h; split at h
  · exact ⟨‹_›, store_eq_next h⟩
  · simp at h

theorem put1_body {sp : Space} {off d : Nat} {s t : State} (h : put1 sp off d s = .next t) :
    Body [.write sp off (asciiDigit d)] s t ∧ t.tr = s.tr := by
  obtain ⟨-, -, rfl⟩ := put1_eq_next h; exact ⟨body_stored .., rfl⟩

theorem stored_spaceSize (s : State) (sp sp' : Space) (off : Nat) (b : Byte) :
    spaceSize sp' (s.stored sp off b) = spaceSize sp' s := by cases sp' <;> rfl

theorem put2_ok {sp : Space} {off i : Nat} {s : State} (hi : i < 100) (h : off + 1 < spaceSize sp s) :
    put2 sp off i s =
      .next ((s.stored sp off (asciiDigit (i / 10))).stored sp (off + 1) (asciiDigit (i % 10))) := by
  have h0 : off < spaceSize sp s := by omega
  have h1 : off + 1 < spaceSize sp (s.stored sp off (asciiDigit (i / 10))) := by rwa [stored_spaceSize]
  simp [put2, hi, lut_even, lut_odd, store_ok h0, store_ok h1]

/-- All `put2` can do. -/
theorem put2_eq_next {sp : Space} {off i : Nat} {s t : State} (h : put2 sp off i s = .next t) :
    i < 100 ∧ off + 1 < spaceSize sp s ∧
      t = (s.stored sp off (asciiDigit (i / 10))).stored sp (off + 1) (asciiDigit (i % 10)) := by
  unfold put2 at h; split at h
  · rename_i hi
    obtain ⟨u, hu, ht⟩ := andThen_eq_next.1 h
    obtain ⟨-, rfl⟩ := store_eq_next hu
    obtain ⟨h1, rfl⟩ := store_eq_next ht
    rw [stored_spaceSize] at h1
    exact ⟨hi, h1, by rw [lut_even, lut_odd]⟩
  · simp at h

theorem put2_body {sp : Space} {off i : Nat} {s t : State} (h : put2 sp off i s = .next t) :
    Body [.write sp off (asciiDigit (i / 10)), .write sp (off + 1) (asciiDigit (i % 10))] s t ∧ t.tr = s.tr := by
  obtain ⟨-, -, rfl⟩ := put2_eq_next h
  exact ⟨(body_stored ..).trans (body_stored ..), rfl⟩

theorem decCur_ok {k : Nat} {s : State} (h : k ≤ s.tr.cur) :
    decCur k s = .next (s.withTr { s.tr with cur := s.tr.cur - k }) := by simp [decCur, h]

/-- All `decCur` can do. -/
theorem decCur_eq_next {k : Nat} {s t : State} (h : decCur k s = .next t) :
    k ≤ s.tr.cur ∧ t = s.withTr { s.tr with cur := s.tr.cur - k } := by
  unfold decCur at h; split at h
  · exact ⟨‹_›, by simpa using h.symm⟩
  · simp at h

theorem decCur_body {k : Nat} {s t : State} (h : decCur k s = .next t) : Body [] s t := by
  obtain ⟨-, rfl⟩ := decCur_eq_next h; exact body_withTr ..

theorem incCur_body {k : Nat} {s t : State} (h : incCur k s = .next t) : Body [] s t := by
  obtain rfl : s.withTr { s.tr with cur := s.tr.cur + k } = t := by simpa [incCur] using h
  exact body_withTr ..

/-! ### Prologue, capacity check and epilogue -/

/-- All the prologue of a writer can do (10_state.md R42). -/
theorem withValueAndLength_cases (w : Width) (s : State) (k : State → Answer) :
    (s.valWritten = true ∧ s.blenWritten = true ∧ withValueAndLength w s k = k (s.issued.latched w)) ∨
      (s.blenWritten = false ∧ withValueAndLength w s k = .refused .blenNotWritten) ∨
      (s.blenWritten = true ∧ s.valWritten = false ∧ withValueAndLength w s k = .refused .valNotWritten) := by
  cases hb : s.blenWritten <;> cases hv : s.valWritten <;> simp [withValueAndLength, withValue, hb, hv]

/-- All the prologue of DCOUNT can do (10_state.md R42). -/
theorem withValue_cases (w : Width) (s : State) (k : State → Answer) :
    (s.valWritten = true ∧ withValue w s k = k (s.issued.latched w)) ∨
      (s.valWritten = false ∧ withValue w s k = .refused .valNotWritten) := by
  cases hv : s.valWritten <;> simp [withValue, hv]

/-- All the capacity check can do (60_exceptions.md R191, R193). -/
theorem capacity_cases (mode : Mode) (need : Nat) (s : State) (k : State → Answer) :
    (need ≤ s.blen ∧ capacity mode need s k = k s) ∨
      (s.blen < need ∧ mode = .checked ∧ capacity mode need s k = .next (s.raised .bufferTooSmall)) ∨
      (s.blen < need ∧ mode = .unchecked ∧ capacity mode need s k = .refused .uncheckedCapacity) := by
  by_cases h : need ≤ s.blen
  · exact .inl ⟨h, by simp [capacity, h]⟩
  · cases mode <;> simp [capacity, h] <;> omega

end Sys2Proof.Machine
end

