-- ==== Sys2Proof/Laws/Count.lean ====
section
/-! SUPPORT. What the digit count estimator leaves (41_digit_count_estimator.md R100 to R107): an operation shared by DCOUNT,
WRNX and WRP. -/

namespace Sys2Proof.Machine

theorem digitCount_eq_next {w : Width} {s t : State} (h : digitCount w s = .next t) :
    ∃ tr, t = s.withTr tr ∧ tr.v = s.tr.v := by
  have key : ∀ {s t : State}, (countNarrow s = .next t ∨ countWide s = .next t) → ∃ tr, t = s.withTr tr ∧ tr.v = s.tr.v := by
    intro s t h
    rcases h with h | h
    · unfold countNarrow at h
      dsimp only at h
      split at h
      · obtain rfl := (Host.Outcome.next.inj h).symm
        exact ⟨_, rfl, rfl⟩
      · simp at h
    · unfold countWide at h
      dsimp only at h
      split at h
      · obtain rfl := (Host.Outcome.next.inj h).symm
        exact ⟨_, rfl, rfl⟩
      · simp at h
  cases w <;> simp only [digitCount] at h
  all_goals first | exact key (.inl h) | exact key (.inr h)

theorem digitCount_body {w : Width} {s t : State} (h : digitCount w s = .next t) : Body [] s t := by
  obtain ⟨tr, rfl, -⟩ := digitCount_eq_next h
  exact body_withTr ..

/-! ### The 32-bit path -/

theorem log2_or_one (v : Nat) : (v ||| 1).log2 = Nat.log2 (max v 1) := by
  rcases Nat.eq_zero_or_pos v with rfl | hv
  · rfl
  · have h1 : v ≤ v ||| 1 := Nat.left_le_or
    have h2 : v ||| 1 < 2 ^ (v.log2 + 1) :=
      Nat.or_lt_two_pow Nat.lt_log2_self (Nat.one_lt_two_pow (by omega))
    rw [Nat.max_eq_left hv]
    have h3 : 2 ^ v.log2 ≤ v := Nat.log2_self_le (by omega)
    exact (Nat.log2_eq_iff (by omega)).2 ⟨le_trans h3 h1, h2⟩

/-- The bounds the estimate keeps (R102), for every binary logarithm of a 128-bit value. -/
theorem log10Estimate_bounds :
    ∀ l < 128, 10 ^ log10Estimate l ≤ 2 ^ l ∧ 2 ^ (l + 1) ≤ 10 ^ (log10Estimate l + 2) ∧ log10Estimate l ≤ 38 := by
  decide +kernel

/-- `digits` from an estimate that is right or one too low. -/
theorem digits_of_estimate {v e : Nat} (hlo : 10 ^ e ≤ max v 1) (hhi : v < 10 ^ (e + 2)) :
    digits v = if 10 ^ (e + 1) ≤ v then e + 2 else e + 1 := by
  split
  · exact digits_eq_of_bounds ‹_› hhi
  · rcases Nat.eq_zero_or_pos v with rfl | hv
    · have he : e = 0 := by
        by_contra hne
        have : 10 ^ 1 ≤ 10 ^ e := Nat.pow_le_pow_right (by omega) (by omega)
        simp at hlo; omega
      subst he; exact digits_of_lt_ten (by omega)
    · rw [Nat.max_eq_left hv] at hlo
      exact digits_eq_of_bounds hlo (by omega)

/-- The correction table does what R23 asks of it, with the sum below 2^64. -/
theorem dct32_exact {v l : Nat} (hl : l < 32) (hlo : 2 ^ l ≤ max v 1) (hhi : v < 2 ^ (l + 1)) :
    ∃ d, dct32 l = some d ∧ v + d.toNat < 2 ^ 64 ∧ (v + d.toNat) / 2 ^ 32 = digits v := by
  obtain ⟨h1, h2, -⟩ := log10Estimate_bounds l (by omega)
  have hdig := digits_of_estimate (le_trans h1 hlo) (lt_of_lt_of_le hhi h2)
  clear h1 h2
  interval_cases l <;>
    (refine ⟨_, rfl, ?_, ?_⟩ <;> norm_num [log10Estimate, Nat.shiftRight_eq_div_pow] at hdig hlo hhi ⊢ <;>
      (try rw [hdig]) <;> (try split) <;> omega)

theorem or_one_toNat (v : Value) : (v ||| 1#128).toNat = v.toNat ||| 1 := by
  rw [BitVec.toNat_or]; rfl

theorem log2_register {v : Value} {b : Nat} (hb : b ≤ 128) (hb0 : 0 < b) (h : v.toNat < 2 ^ b) :
    (BitVec.ofNat 7 (v ||| 1#128).toNat.log2).toNat = Nat.log2 (max v.toNat 1) ∧
      Nat.log2 (max v.toNat 1) < b ∧ 2 ^ Nat.log2 (max v.toNat 1) ≤ max v.toNat 1 ∧
      v.toNat < 2 ^ (Nat.log2 (max v.toNat 1) + 1) := by
  have hm : max v.toNat 1 < 2 ^ b := by
    have := Nat.one_lt_two_pow (n := b) (by omega)
    omega
  have hl : Nat.log2 (max v.toNat 1) < b := (Nat.log2_lt (by omega)).2 hm
  refine ⟨?_, hl, Nat.log2_self_le (by omega), ?_⟩
  · rw [or_one_toNat, log2_or_one, BitVec.toNat_ofNat]
    exact Nat.mod_eq_of_lt (by omega)
  · have : max v.toNat 1 < 2 ^ (Nat.log2 (max v.toNat 1) + 1) := Nat.lt_log2_self
    omega

theorem countNarrow_ok {s : State} (h : s.tr.v.toNat < 2 ^ 32) :
    ∃ t, countNarrow s = .next t ∧ t.tr.n.toNat = digits s.tr.v.toNat ∧ t.tr.v = s.tr.v ∧ Body [] s t := by
  obtain ⟨h1, h2, h3, h4⟩ := log2_register (by omega) (by omega) h
  obtain ⟨d, hd, hsum, hdig⟩ := dct32_exact h2 h3 h4
  unfold countNarrow setLog2
  simp only [withTr_tr, h1, hd]
  refine ⟨_, rfl, ?_, rfl, (body_withTr _ _).trans (body_withTr _ _)⟩
  simp only [withTr_tr, BitVec.toNat_setWidth, BitVec.toNat_ushiftRight, BitVec.toNat_add, Nat.shiftRight_eq_div_pow]
  rw [Nat.mod_eq_of_lt (a := s.tr.v.toNat) (by omega), Nat.mod_eq_of_lt hsum, hdig]
  exact Nat.mod_eq_of_lt (by have := digits_le_39 (v := s.tr.v.toNat) (by omega); omega)

theorem countWide_ok (s : State) :
    ∃ t, countWide s = .next t ∧ t.tr.n.toNat = digits s.tr.v.toNat ∧ t.tr.v = s.tr.v ∧ Body [] s t := by
  obtain ⟨h1, h2, h3, h4⟩ := log2_register (by omega) (by omega) s.tr.v.isLt
  obtain ⟨e1, e2, e3⟩ := log10Estimate_bounds _ h2
  have hdig := digits_of_estimate (le_trans e1 h3) (lt_of_lt_of_le h4 e2)
  have he : (BitVec.ofNat 6 (log10Estimate (Nat.log2 (max s.tr.v.toNat 1)))).toNat =
      log10Estimate (Nat.log2 (max s.tr.v.toNat 1)) := by
    rw [BitVec.toNat_ofNat]; exact Nat.mod_eq_of_lt (by omega)
  unfold countWide setLog2
  simp only [withTr_tr, h1, he, pt, e3, if_true]
  refine ⟨_, rfl, ?_, rfl, ((body_withTr _ _).trans (body_withTr _ _)).trans (body_withTr _ _)⟩
  rw [hdig]
  simp only [withTr_tr]
  split <;> rw [BitVec.toNat_add, he] <;> simp <;> omega

/-- The estimator is exact at every width (R100, R110). -/
theorem digitCount_ok {w : Width} {s : State} (h : s.tr.v.toNat < 2 ^ widthBits w) :
    ∃ t, digitCount w s = .next t ∧ t.tr.n.toNat = digits s.tr.v.toNat ∧ t.tr.v = s.tr.v ∧ Body [] s t := by
  cases w with
  | w8 => exact countNarrow_ok (lt_trans h (by decide))
  | w16 => exact countNarrow_ok (lt_trans h (by decide))
  | w32 => exact countNarrow_ok h
  | w64 => exact countWide_ok s
  | w128 => exact countWide_ok s

end Sys2Proof.Machine
end

