-- ==== Sys2Proof/Laws/Text.lean ====
section
/-! SUPPORT. Decimal text as a list of stores, upward (WRNT's copy, WRM, WRF10, WRW) and downward (WRNX, WRNT's scratch), and
what a memory reads after it. -/

namespace Sys2Proof.Machine

/-- The stores of `dec_fixed(x, n)` at offsets off .. off+n-1, upward. -/
def textUp (sp : Space) (off x n : Nat) : List Access :=
  (List.range n).map fun j => .write sp (off + j) (asciiDigit (decDigit x n j))

/-- The stores of the `n` low digits of `x` at offsets cur-1 down to cur-n, the units digit first. -/
def textDown (sp : Space) (cur x n : Nat) : List Access :=
  (List.range n).map fun k => .write sp (cur - 1 - k) (asciiDigit (x / 10 ^ k % 10))

@[simp] theorem textUp_zero (sp : Space) (off x : Nat) : textUp sp off x 0 = [] := rfl

@[simp] theorem textDown_zero (sp : Space) (cur x : Nat) : textDown sp cur x 0 = [] := rfl

theorem textUp_one {sp : Space} {off d : Nat} (h : d < 10) : textUp sp off d 1 = [.write sp off (asciiDigit d)] := by
  have : decDigit d 1 0 = d := by simp [decDigit, Nat.mod_eq_of_lt h]
  simp [textUp, this]

theorem textUp_two {sp : Space} {off i : Nat} (h : i < 100) :
    textUp sp off i 2 = [.write sp off (asciiDigit (i / 10)), .write sp (off + 1) (asciiDigit (i % 10))] := by
  have h0 : decDigit i 2 0 = i / 10 := by simp only [decDigit]; norm_num; omega
  have h1 : decDigit i 2 1 = i % 10 := by simp [decDigit]
  simp [textUp, List.range_succ, h0, h1]

/-- A text is its upper part followed by its lower part. -/
theorem textUp_append (sp : Space) (off x a b : Nat) :
    textUp sp off x (a + b) = textUp sp off (x / 10 ^ b) a ++ textUp sp (off + a) (x % 10 ^ b) b := by
  unfold textUp
  rw [List.range_add, List.map_append, List.map_map]
  congr 1
  · refine List.map_congr_left fun j hj => ?_
    rw [decDigit_upper (List.mem_range.1 hj)]
  · refine List.map_congr_left fun j hj => ?_
    simp only [Function.comp_apply, Nat.add_assoc]
    rw [decDigit_lower (List.mem_range.1 hj)]

theorem textDown_succ (sp : Space) (cur x n : Nat) :
    textDown sp cur x (n + 1) =
      .write sp (cur - 1) (asciiDigit (x % 10)) :: textDown sp (cur - 1) (x / 10) n := by
  unfold textDown
  rw [List.range_succ_eq_map, List.map_cons, List.map_map]
  congr 1
  · simp
  · refine List.map_congr_left fun k _ => ?_
    simp only [Function.comp_apply, Nat.succ_eq_add_one]
    rw [Nat.div_div_eq_div_mul, ← Nat.pow_succ', show cur - 1 - (k + 1) = cur - 1 - 1 - k by omega]

/-! ### Reading after a text -/

theorem replay_cons (sp : Space) (m : Memory) (a : Access) (l : List Access) :
    replay sp m (a :: l) = replay sp (applyAccess sp m a) l := rfl

/-- Accesses of another space leave a space's memory. -/
theorem replay_other {sp : Space} (m : Memory) {l : List Access} (h : ∀ a ∈ l, a.space ≠ sp) : replay sp m l = m := by
  induction l generalizing m with
  | nil => rfl
  | cons a rest ih =>
    rw [replay_cons]
    have ha := h a List.mem_cons_self
    have : applyAccess sp m a = m := by
      cases a with
      | read => rfl
      | write sp' off b => simp only [applyAccess]; exact if_neg ha
    rw [this]
    exact ih m fun x hx => h x (List.mem_cons_of_mem _ hx)

/-- A byte no listed access is at stays as it was. -/
theorem memRead_replay_of_outside {sp : Space} (m : Memory) {l : List Access} {a : Nat}
    (h : ∀ x ∈ l, x.space = sp → x.offset ≠ a) : memRead (replay sp m l) a = memRead m a := by
  induction l generalizing m with
  | nil => rfl
  | cons x rest ih =>
    rw [replay_cons, ih _ fun y hy => h y (List.mem_cons_of_mem _ hy)]
    cases x with
    | read => rfl
    | write sp' off b =>
      simp only [applyAccess]
      split
      · rename_i he
        refine memRead_memWrite_of_ne m b fun hao => ?_
        exact h _ List.mem_cons_self he hao.symm
      · rfl

/-- After a run of stores at distinct offsets, each offset reads its byte. -/
theorem memRead_replay_map {sp : Space} (m : Memory) (off : Nat → Nat) (byte : Nat → Byte) (n : Nat)
    (hinj : ∀ i < n, ∀ j < n, off i = off j → i = j) {k : Nat} (hk : k < n) :
    memRead (replay sp m ((List.range n).map fun i => .write sp (off i) (byte i))) (off k) = some (byte k) := by
  induction n with
  | zero => omega
  | succ n ih =>
    rw [List.range_succ, List.map_append, replay_append]
    simp only [List.map_cons, List.map_nil, replay_cons, replay_nil, applyAccess, if_true, memRead_memWrite]
    by_cases h : k = n
    · subst h; simp
    · have hne : off k ≠ off n := fun e => h (hinj k hk n (by omega) e)
      rw [if_neg hne]
      exact ih (fun i hi j hj => hinj i (by omega) j (by omega)) (by omega)

theorem memRead_textUp {sp : Space} (m : Memory) (off x n a : Nat) :
    memRead (replay sp m (textUp sp off x n)) a =
      if off ≤ a ∧ a < off + n then some (asciiDigit (decDigit x n (a - off))) else memRead m a := by
  split
  · rename_i h
    have := memRead_replay_map (sp := sp) m (fun j => off + j) (fun j => asciiDigit (decDigit x n j)) n
      (fun i _ j _ e => by simpa using e) (k := a - off) (by omega)
    have he : off + (a - off) = a := by omega
    simp only [he] at this
    exact this
  · rename_i h
    refine memRead_replay_of_outside m fun y hy _ e => h ?_
    obtain ⟨j, hj, rfl⟩ := List.mem_map.1 hy
    have hj := List.mem_range.1 hj
    simp only [Access.offset] at e
    omega

theorem memRead_textDown {sp : Space} (m : Memory) {cur n : Nat} (h : n ≤ cur) (x a : Nat) :
    memRead (replay sp m (textDown sp cur x n)) a =
      if cur - n ≤ a ∧ a < cur then some (asciiDigit (x / 10 ^ (cur - 1 - a) % 10)) else memRead m a := by
  split
  · rename_i ha
    have := memRead_replay_map (sp := sp) m (fun k => cur - 1 - k) (fun k => asciiDigit (x / 10 ^ k % 10)) n
      (fun i hi j hj e => by omega) (k := cur - 1 - a) (by omega)
    have he : cur - 1 - (cur - 1 - a) = a := by omega
    simp only [he] at this
    exact this
  · rename_i ha
    refine memRead_replay_of_outside m fun y hy _ e => ha ?_
    obtain ⟨j, hj, rfl⟩ := List.mem_map.1 hy
    have hj := List.mem_range.1 hj
    simp only [Access.offset] at e
    omega

/-! ### The access lists of WRP and WRW -/

theorem pairedStores_length (n : Nat) (text : Nat → Byte) : (pairedStores n text).length = n := by
  simp only [pairedStores, List.length_append, List.length_flatMap]
  split <;> simp <;> omega

theorem wideAccesses_length (d m : Nat) (text : Nat → Byte) : (wideAccesses d m text).length = d + 12 * m := by
  simp [wideAccesses, List.length_flatMap, Nat.mul_comm]

/-- With no lower chunk the accesses of WRW are the top chunk's alone (45_wide_splitter.md R183). -/
theorem wideAccesses_zero (d : Nat) (text : Nat → Byte) :
    wideAccesses d 0 text = (List.range d).map fun j => .write .buf j (text j) := by simp [wideAccesses]

end Sys2Proof.Machine
end

