-- ==== Sys2Proof/Laws/Loops.lean ====
section
/-! SUPPORT. What the shared loops and procedures can do: that each is a `Body` (`_body`), and, where its premises hold, that it
answers a next state with exactly these accesses (`_ok`). -/

namespace Sys2Proof.Machine

/-! ### Inversion: every procedure is a body -/

theorem naiveLoop_body {sp : Space} : ∀ {passes : Nat} {s t : State}, naiveLoop sp passes s = .next t → ∃ l, Body l s t := by
  intro passes
  induction passes with
  | zero => intro s t h; simp [naiveLoop] at h
  | succ k ih =>
    intro s t h
    unfold naiveLoop at h
    split at h
    · obtain ⟨a, ha, h⟩ := andThen_eq_next.1 h
      obtain ⟨b, hb, h⟩ := andThen_eq_next.1 h
      obtain ⟨l, hl⟩ := ih h
      exact ⟨_, (decCur_body ha).after_withTr.trans ((put1_body hb).1.trans hl)⟩
    · obtain ⟨a, ha, h⟩ := andThen_eq_next.1 h
      exact ⟨_, (decCur_body ha).trans (put1_body h).1⟩

theorem copyLoop_body : ∀ {count i : Nat} {s t : State}, copyLoop count i s = .next t → ∃ l, Body l s t := by
  intro count
  induction count with
  | zero =>
    intro i s t h
    obtain rfl : s = t := by simpa [copyLoop] using h
    exact ⟨_, Body.refl s⟩
  | succ k ih =>
    intro i s t h
    obtain ⟨-, b, -, h⟩ := load_eq_next h
    obtain ⟨a, ha, h⟩ := andThen_eq_next.1 h
    obtain ⟨l, hl⟩ := ih h
    exact ⟨_, (body_logged_read ..).trans ((store_body ha).1.trans hl)⟩

theorem pairedPhase1_body : ∀ {passes : Nat} {s t : State}, pairedPhase1 passes s = .next t → ∃ l, Body l s t := by
  intro passes
  induction passes with
  | zero => intro s t h; simp [pairedPhase1] at h
  | succ k ih =>
    intro s t h
    unfold pairedPhase1 at h
    split at h
    · obtain ⟨a, ha, h⟩ := andThen_eq_next.1 h
      obtain ⟨b, hb, h⟩ := andThen_eq_next.1 h
      obtain ⟨c, hc, h⟩ := andThen_eq_next.1 h
      obtain ⟨d, hd, h⟩ := andThen_eq_next.1 h
      obtain ⟨l, hl⟩ := ih h
      exact ⟨_, (decCur_body ha).after_withTr.after_withTr.trans
        ((put2_body hb).1.trans ((decCur_body hc).trans ((put2_body hd).1.trans hl)))⟩
    · obtain rfl : s = t := by simpa using h
      exact ⟨_, Body.refl s⟩

theorem pairedPhase2_body : ∀ {passes : Nat} {s t : State}, pairedPhase2 passes s = .next t → ∃ l, Body l s t := by
  intro passes
  induction passes with
  | zero => intro s t h; simp [pairedPhase2] at h
  | succ k ih =>
    intro s t h
    unfold pairedPhase2 at h
    split at h
    · obtain ⟨a, ha, h⟩ := andThen_eq_next.1 h
      obtain ⟨b, hb, h⟩ := andThen_eq_next.1 h
      obtain ⟨l, hl⟩ := ih h
      exact ⟨_, (decCur_body ha).after_withTr.trans ((put2_body hb).1.trans hl)⟩
    · obtain rfl : s = t := by simpa using h
      exact ⟨_, Body.refl s⟩

theorem pairedPhase3_body {s t : State} (h : pairedPhase3 s = .next t) : ∃ l, Body l s t := by
  unfold pairedPhase3 at h
  split at h
  · obtain ⟨a, ha, h⟩ := andThen_eq_next.1 h
    exact ⟨_, (decCur_body ha).trans (put1_body h).1⟩
  · obtain ⟨a, ha, h⟩ := andThen_eq_next.1 h
    exact ⟨_, (decCur_body ha).trans (put2_body h).1⟩

theorem refineLoop_body : ∀ {steps : Nat} {s t : State}, refineLoop steps s = .next t → ∃ l, Body l s t := by
  intro steps
  induction steps with
  | zero =>
    intro s t h
    obtain rfl : s = t := by simpa [refineLoop] using h
    exact ⟨_, Body.refl s⟩
  | succ k ih =>
    intro s t h
    unfold refineLoop at h
    obtain ⟨a, ha, h⟩ := andThen_eq_next.1 h
    obtain ⟨b, hb, h⟩ := andThen_eq_next.1 h
    obtain ⟨l, hl⟩ := ih h
    exact ⟨_, (put2_body ha).1.after_withTr.trans ((incCur_body hb).trans hl)⟩

theorem emitBand_body {n k : Nat} {magic : Magic} {v : Value} {s t : State} (h : emitBand n k magic v s = .next t) :
    ∃ l, Body l s t := by
  unfold emitBand at h
  obtain ⟨a, ha, h⟩ := andThen_eq_next.1 h
  obtain ⟨l, hl⟩ := refineLoop_body h
  split at ha
  · obtain ⟨b, hb, ha⟩ := andThen_eq_next.1 ha
    exact ⟨_, (((put1_body hb).1.trans (incCur_body ha)).after_withTr.after_withTr).trans hl⟩
  · obtain ⟨b, hb, ha⟩ := andThen_eq_next.1 ha
    exact ⟨_, (((put2_body hb).1.trans (incCur_body ha)).after_withTr.after_withTr).trans hl⟩

theorem magicEmit_body {base : Nat} {v : Value} {s t : State} (h : magicEmit base v s = .next t) : ∃ l, Body l s t := by
  unfold magicEmit at h
  dsimp only at h
  split at h
  · split at h
    · obtain ⟨b, hb, h⟩ := andThen_eq_next.1 h
      exact ⟨_, ((put1_body hb).1.trans (incCur_body h)).after_withTr⟩
    · obtain ⟨b, hb, h⟩ := andThen_eq_next.1 h
      exact ⟨_, ((put2_body hb).1.trans (incCur_body h)).after_withTr⟩
  · split at h
    · obtain ⟨l, hl⟩ := emitBand_body h
      exact ⟨_, hl.after_withTr⟩
    · simp at h

theorem fixedLoop_body : ∀ {steps off : Nat} {s t : State}, fixedLoop steps off s = .next t → ∃ l, Body l s t := by
  intro steps
  induction steps with
  | zero =>
    intro off s t h
    obtain rfl : s = t := by simpa [fixedLoop] using h
    exact ⟨_, Body.refl s⟩
  | succ k ih =>
    intro off s t h
    unfold fixedLoop at h
    obtain ⟨a, ha, h⟩ := andThen_eq_next.1 h
    obtain ⟨l, hl⟩ := ih h
    exact ⟨_, (put2_body ha).1.after_withTr.trans hl⟩

theorem fixed10Emit_body {base : Nat} {v : BitVec 64} {s t : State} (h : fixed10Emit base v s = .next t) :
    ∃ l, Body l s t := by
  unfold fixed10Emit at h
  obtain ⟨a, ha, h⟩ := andThen_eq_next.1 h
  obtain ⟨l, hl⟩ := fixedLoop_body h
  exact ⟨_, (put2_body ha).1.after_withTr.trans hl⟩

theorem splitStep_body {s t : State} (h : splitStep s = .next t) : Body [] s t := by
  unfold splitStep at h
  split at h
  · obtain rfl := (Host.Outcome.next.inj h).symm
    exact body_withTr ..
  · simp at h

theorem splitLoop_body : ∀ {passes : Nat} {s t : State}, splitLoop passes s = .next t → Body [] s t := by
  intro passes
  induction passes with
  | zero => intro s t h; simp [splitLoop] at h
  | succ k ih =>
    intro s t h
    unfold splitLoop at h
    split at h
    · obtain ⟨a, ha, h⟩ := andThen_eq_next.1 h
      exact (splitStep_body ha).trans (ih h)
    · obtain rfl : s = t := by simpa using h
      exact Body.refl s

theorem stitch_body {i : Nat} {s t : State} (h : stitch i s = .next t) : ∃ l, Body l s t := by
  unfold stitch at h
  obtain ⟨a, ha, h⟩ := andThen_eq_next.1 h
  obtain ⟨-, b, -, h⟩ := load_eq_next h
  obtain ⟨c, hc, h⟩ := andThen_eq_next.1 h
  obtain ⟨d, hd, h⟩ := andThen_eq_next.1 h
  obtain rfl := (Host.Outcome.next.inj h).symm
  obtain ⟨l, hl⟩ := fixed10Emit_body hc
  have h1 := (body_logged_read _ _ _).trans hl.after_withTr
  exact ⟨_, (decCur_body ha).trans (h1.after_withTr.trans ((store_body hd).1.trans (body_withTr ..)))⟩

theorem stitchLoop_body : ∀ {count : Nat} {s t : State}, stitchLoop count s = .next t → ∃ l, Body l s t := by
  intro count
  induction count with
  | zero =>
    intro s t h
    obtain rfl : s = t := by simpa [stitchLoop] using h
    exact ⟨_, Body.refl s⟩
  | succ k ih =>
    intro s t h
    obtain ⟨a, ha, h⟩ := andThen_eq_next.1 h
    obtain ⟨l, hl⟩ := stitch_body ha
    obtain ⟨l', hl'⟩ := ih h
    exact ⟨_, hl.trans hl'⟩

/-! ### The division loop (42_naive_divmod_writer.md R121, R122) -/

/-- The loop writes the digits of `v` downward from the cursor and moves the cursor down by their number. -/
theorem naiveLoop_ok {sp : Space} : ∀ {passes : Nat} {s : State}, digits s.tr.v.toNat ≤ passes →
    digits s.tr.v.toNat ≤ s.tr.cur → s.tr.cur ≤ spaceSize sp s →
    ∃ t, naiveLoop sp passes s = .next t ∧
      Body (textDown sp s.tr.cur s.tr.v.toNat (digits s.tr.v.toNat)) s t ∧
      t.tr.cur = s.tr.cur - digits s.tr.v.toNat := by
  intro passes
  induction passes with
  | zero => intro s h; have := digits_pos s.tr.v.toNat; omega
  | succ k ih =>
    intro s h hcur hsize
    unfold naiveLoop
    split
    · rename_i hv
      have hdig := digits_of_ten_le hv
      have hr : ((s.tr.v % 10).setWidth 14).toNat = s.tr.v.toNat % 10 := by
        rw [BitVec.toNat_setWidth, BitVec.toNat_umod]
        exact Nat.mod_eq_of_lt (lt_trans (Nat.mod_lt _ (by decide)) (by decide))
      have hq : (s.tr.v / 10).toNat = s.tr.v.toNat / 10 := by rw [BitVec.toNat_udiv]; rfl
      dsimp only
      rw [decCur_ok (by simp only [withTr_tr]; omega), andThen_next]
      simp only [withTr_tr]
      rw [put1_ok (by rw [hr]; omega) (by cases sp <;> simp only [spaceSize, withTr_blen] at hsize ⊢ <;> omega), andThen_next]
      generalize hu : State.stored _ _ _ _ = u
      have hbody : Body [.write sp (s.tr.cur - 1) (asciiDigit (s.tr.v.toNat % 10))] s u := by
        subst hu; rw [hr]
        exact ((body_stored ..).after_withTr).after_withTr
      have htv : u.tr.v.toNat = s.tr.v.toNat / 10 := by subst hu; exact hq
      have htc : u.tr.cur = s.tr.cur - 1 := by subst hu; rfl
      obtain ⟨t, ht, hb, hc⟩ := ih (s := u) (by rw [htv]; omega) (by rw [htv, htc]; omega)
        (by rw [hbody.spaceSize, htc]; omega)
      refine ⟨t, ht, ?_, by rw [hc, htv, htc, hdig]; omega⟩
      rw [htv, htc] at hb
      rw [hdig, textDown_succ]
      exact hbody.trans hb
    · rename_i hv
      have hdig := digits_of_lt_ten (show s.tr.v.toNat < 10 by omega)
      rw [decCur_ok (by omega), andThen_next, put1_ok (by simp only [withTr_tr]; omega)
        (by cases sp <;> simp only [spaceSize, withTr_blen, withTr_tr] at hsize ⊢ <;> omega)]
      refine ⟨_, rfl, ?_, by rw [hdig]; rfl⟩
      rw [hdig, textDown_succ, textDown_zero, Nat.mod_eq_of_lt (by omega)]
      exact (body_stored ..).after_withTr

/-! ### The magic datapath (44_magic_multiply_digit_extractor.md R155 to R164) -/

/-- The transient registers that the emitters leave alone. -/
structure KeepsWide (s t : State) : Prop where
  v : t.tr.v = s.tr.v
  n : t.tr.n = s.tr.n
  chunk : t.tr.chunk = s.tr.chunk
  m : t.tr.m = s.tr.m
  p : t.tr.p = s.tr.p
  sav : t.tr.sav = s.tr.sav

theorem KeepsWide.trans {s t u : State} (h : KeepsWide s t) (h' : KeepsWide t u) : KeepsWide s u :=
  ⟨h'.v.trans h.v, h'.n.trans h.n, h'.chunk.trans h.chunk, h'.m.trans h.m, h'.p.trans h.p, h'.sav.trans h.sav⟩

/-- `prod` stands for `x / 10^k` with 32 fraction bits (R155): close enough that its integer part is exact. -/
def Stands (prod x k : Nat) : Prop := x * 2 ^ 32 ≤ prod * 10 ^ k ∧ prod * 10 ^ k < (x + 1) * 2 ^ 32

/-- The integer part is the leading group. -/
theorem Stands.lead {prod x k : Nat} (h : Stands prod x k) : prod / 2 ^ 32 = x / 10 ^ k := by
  obtain ⟨h1, h2⟩ := h
  have hp : 0 < 10 ^ k := Nat.pow_pos (by omega)
  have ha : x / 10 ^ k * 10 ^ k ≤ x := Nat.div_mul_le_self x _
  have hb : x < (x / 10 ^ k + 1) * 10 ^ k := by
    rw [Nat.add_mul, Nat.one_mul]; have := Nat.mod_lt x hp; have := Nat.div_add_mod x (10 ^ k)
    rw [Nat.mul_comm] at this; omega
  generalize x / 10 ^ k = q at ha hb ⊢
  generalize 10 ^ k = d at h1 h2 hp ha hb
  refine Nat.div_eq_of_lt_le ?_ ?_
  · have : q * 2 ^ 32 * d ≤ prod * d := by nlinarith
    exact Nat.le_of_mul_le_mul_right this hp
  · have : prod * d < (q + 1) * 2 ^ 32 * d := by nlinarith
    exact Nat.lt_of_mul_lt_mul_right this

/-- A refinement (R157) stands for the rest. -/
theorem Stands.refine {prod x k : Nat} (h : Stands prod x (k + 2)) :
    Stands (prod % 2 ^ 32 * 100) (x % 10 ^ (k + 2)) k := by
  have hl := h.lead
  obtain ⟨h1, h2⟩ := h
  have hx := Nat.div_add_mod x (10 ^ (k + 2))
  have hP := Nat.div_add_mod prod (2 ^ 32)
  rw [hl] at hP
  have hpow : 10 ^ (k + 2) = 10 ^ k * 100 := by rw [Nat.pow_add]
  generalize hq : x / 10 ^ (k + 2) = q at hx hP
  generalize hr : x % 10 ^ (k + 2) = r at hx ⊢
  generalize hf : prod % 2 ^ 32 = f at hP ⊢
  rw [hpow] at hx h1 h2
  unfold Stands
  generalize 10 ^ k = d at hx h1 h2 ⊢
  rw [← hx, ← hP] at h1 h2
  constructor <;> nlinarith

/-- The masked product of a refinement, in 64 bits: no wrap-around (R160). -/
theorem refine_toNat (prod : BitVec 64) :
    ((prod &&& fractionMask) * 100).toNat = prod.toNat % 2 ^ 32 * 100 := by
  have hm : (prod &&& fractionMask).toNat = prod.toNat % 2 ^ 32 := by
    rw [BitVec.toNat_and]
    exact Nat.and_two_pow_sub_one_eq_mod prod.toNat 32
  have hlt := Nat.mod_lt prod.toNat (show 0 < 2 ^ 32 by decide)
  rw [BitVec.toNat_mul, hm]
  exact Nat.mod_eq_of_lt (by change _ * 100 < _; omega)

theorem shift32_toNat (prod : BitVec 64) : (prod >>> 32).toNat = prod.toNat / 2 ^ 32 := by
  rw [BitVec.toNat_ushiftRight, Nat.shiftRight_eq_div_pow]

theorem div_lt_hundred {r k : Nat} (h : r < 10 ^ (k + 2)) : r / 10 ^ k < 100 := by
  rw [Nat.div_lt_iff_lt_mul (Nat.pow_pos (by omega))]
  rw [Nat.pow_add] at h; omega

/-- The refinements write the remaining digits (R157). -/
theorem refineLoop_ok : ∀ {steps x : Nat} {s : State}, Stands s.tr.prod.toNat x (2 * steps) →
    s.tr.cur + 2 * steps ≤ s.blen →
    ∃ t, refineLoop steps s = .next t ∧
      Body (textUp .buf s.tr.cur (x % 10 ^ (2 * steps)) (2 * steps)) s t ∧
      t.tr.cur = s.tr.cur + 2 * steps ∧ KeepsWide s t := by
  intro steps
  induction steps with
  | zero => intro x s _ _; exact ⟨s, rfl, Body.refl s, rfl, ⟨rfl, rfl, rfl, rfl, rfl, rfl⟩⟩
  | succ k ih =>
    intro x s hst hlen
    have href : Stands (s.tr.prod.toNat % 2 ^ 32 * 100) (x % 10 ^ (2 * k + 2)) (2 * k) := hst.refine
    have hlead := href.lead
    have hlt : x % 10 ^ (2 * k + 2) < 10 ^ (2 * k + 2) := Nat.mod_lt _ (Nat.pow_pos (by omega))
    have h100 := div_lt_hundred hlt
    unfold refineLoop
    dsimp only
    simp only [withTr_tr, shift32_toNat, refine_toNat, hlead]
    rw [put2_ok h100 (by simp only [spaceSize, withTr_blen]; omega), andThen_next]
    simp only [incCur, andThen_next]
    generalize hu : State.withTr (State.stored _ _ _ _) _ = u
    have hub : Body (textUp .buf s.tr.cur (x % 10 ^ (2 * k + 2) / 10 ^ (2 * k)) 2) s u := by
      subst hu; rw [textUp_two h100]
      exact ((body_stored ..).after_withTr.trans (body_stored ..)).trans (body_withTr ..)
    have hup : u.tr.prod.toNat = s.tr.prod.toNat % 2 ^ 32 * 100 := by subst hu; exact refine_toNat _
    have huc : u.tr.cur = s.tr.cur + 2 := by subst hu; rfl
    have huk : KeepsWide s u := by subst hu; exact ⟨rfl, rfl, rfl, rfl, rfl, rfl⟩
    obtain ⟨t, ht, hb, hc, hk⟩ := ih (x := x % 10 ^ (2 * k + 2)) (s := u) (by rw [hup]; exact href)
      (by rw [huc, hub.blen]; omega)
    refine ⟨t, ht, ?_, by rw [hc, huc]; omega, huk.trans hk⟩
    have happ := textUp_append .buf s.tr.cur (x % 10 ^ (2 * k + 2)) 2 (2 * k)
    rw [show 2 * (k + 1) = 2 + 2 * k by omega, show 2 + 2 * k = 2 * k + 2 by omega, show 2 * k + 2 = 2 + 2 * k by omega]
    rw [show 2 * k + 2 = 2 + 2 * k by omega] at happ hub hb
    rw [happ, ← huc]
    exact hub.trans hb

end Sys2Proof.Machine
end

