-- ==== Sys2Proof/Laws/Commands.lean ====
section
/-! SUPPORT. What a whole command can do, once for every family: where it answers a next state, that state is a body of accesses
after the prologue, ended by one of the two arms of the epilogue (60_exceptions.md R195). -/

namespace Sys2Proof.Machine

/-- A body after the issue, then the success arm or the fault arm. -/
def Ends (s t : State) : Prop :=
  ∃ l u, Body l s.issued u ∧ ((∃ n, t = u.completed n) ∨ ∃ e, t = u.raised e)

theorem Ends.of_completed {s u : State} {l : List Access} {w : Width} (n : Nat) (h : Body l (s.issued.latched w) u) :
    Ends s (u.completed n) := ⟨l, u, h.after_withTr, .inl ⟨n, rfl⟩⟩

theorem Ends.of_raised {s u : State} {l : List Access} {w : Width} (e : ErrCode) (h : Body l (s.issued.latched w) u) :
    Ends s (u.raised e) := ⟨l, u, h.after_withTr, .inr ⟨e, rfl⟩⟩

/-- The shape every writer ends in: a capacity check after a body, then another body and the success arm. -/
theorem Ends.of_capacity {s a t : State} {l : List Access} {w : Width} {mode : Mode} {need n : Nat}
    {rest : State → Answer} (ha : Body l (s.issued.latched w) a)
    (hrest : ∀ u, rest a = .next u → ∃ l', Body l' a u)
    (h : capacity mode need a (fun s => andThen (rest s) fun s => .next (s.completed n)) = .next t) : Ends s t := by
  rcases capacity_cases mode need a (fun s => andThen (rest s) fun s => .next (s.completed n)) with ⟨-, e⟩ | ⟨-, -, e⟩ | ⟨-, -, e⟩
  · rw [e] at h
    obtain ⟨u, hu, h⟩ := andThen_eq_next.1 h
    obtain rfl := (Host.Outcome.next.inj h).symm
    obtain ⟨l', hl'⟩ := hrest u hu
    exact Ends.of_completed n (ha.trans hl')
  · rw [e] at h
    obtain rfl := (Host.Outcome.next.inj h).symm
    exact Ends.of_raised _ ha
  · rw [e] at h; simp at h

/-- Past the prologue of a writer. -/
theorem withValueAndLength_eq_next {w : Width} {s t : State} {k : State → Answer}
    (h : withValueAndLength w s k = .next t) :
    s.valWritten = true ∧ s.blenWritten = true ∧ k (s.issued.latched w) = .next t := by
  rcases withValueAndLength_cases w s k with ⟨hv, hb, e⟩ | ⟨-, e⟩ | ⟨-, -, e⟩
  · exact ⟨hv, hb, by rw [← e]; exact h⟩
  · rw [e] at h; simp at h
  · rw [e] at h; simp at h

theorem dcount_ends {w : Width} {mode : Mode} {s t : State} (h : dcount w mode s = .next t) : Ends s t := by
  cases mode with
  | checked =>
    rcases withValue_cases w s fun s => andThen (digitCount w s) fun s => .next (s.completed s.tr.n.toNat) with
      ⟨-, e⟩ | ⟨-, e⟩
    · rw [dcount, e] at h
      obtain ⟨u, hu, h⟩ := andThen_eq_next.1 h
      obtain rfl := (Host.Outcome.next.inj h).symm
      exact Ends.of_completed _ (digitCount_body hu)
    · rw [dcount, e] at h; simp at h
  | unchecked =>
    obtain rfl := (Host.Outcome.next.inj h).symm
    exact ⟨[], _, Body.refl _, .inr ⟨_, rfl⟩⟩

theorem lutrd_ends {mode : Mode} {s t : State} (h : execLutrdU8 mode s = .next t) : Ends s t := by
  obtain ⟨-, -, h⟩ := withValueAndLength_eq_next h
  split at h
  · obtain rfl := (Host.Outcome.next.inj h).symm
    exact Ends.of_raised _ (Body.refl _)
  · exact Ends.of_capacity (rest := fun s => put2 .buf 0 s.tr.v.toNat s) (Body.refl _) (fun u hu => ⟨_, (put2_body hu).1⟩) h

theorem wrnx_ends {w : Width} {mode : Mode} {s t : State} (h : wrnx w mode s = .next t) : Ends s t := by
  obtain ⟨-, -, h⟩ := withValueAndLength_eq_next h
  obtain ⟨a, ha, h⟩ := andThen_eq_next.1 h
  refine Ends.of_capacity (rest := fun s => naiveLoop .buf 39 (s.withTr { s.tr with cur := a.tr.n.toNat }))
    (digitCount_body ha) (fun u hu => ?_) h
  obtain ⟨l, hl⟩ := naiveLoop_body hu
  exact ⟨l, hl.after_withTr⟩

theorem wrnt_ends {w : Width} {mode : Mode} {s t : State} (h : wrnt w mode s = .next t) : Ends s t := by
  obtain ⟨-, -, h⟩ := withValueAndLength_eq_next h
  obtain ⟨a, ha, h⟩ := andThen_eq_next.1 h
  obtain ⟨l, hl⟩ := naiveLoop_body ha
  exact Ends.of_capacity (rest := fun s => copyLoop _ 0 s) (hl.after_withTr.trans (body_withTr ..))
    (fun u hu => copyLoop_body hu) h

theorem wrp_ends {w : Width} {mode : Mode} {s t : State} (h : wrp w mode s = .next t) : Ends s t := by
  obtain ⟨-, -, h⟩ := withValueAndLength_eq_next h
  obtain ⟨a, ha, h⟩ := andThen_eq_next.1 h
  dsimp only at h
  rcases capacity_cases mode a.tr.n.toNat a _ with ⟨-, e⟩ | ⟨-, -, e⟩ | ⟨-, -, e⟩ <;> rw [e] at h
  · obtain ⟨b, hb, h⟩ := andThen_eq_next.1 h
    obtain ⟨c, hc, h⟩ := andThen_eq_next.1 h
    obtain ⟨d, hd, h⟩ := andThen_eq_next.1 h
    obtain rfl := (Host.Outcome.next.inj h).symm
    obtain ⟨l1, h1⟩ := pairedPhase1_body hb
    obtain ⟨l2, h2⟩ := pairedPhase2_body hc
    obtain ⟨l3, h3⟩ := pairedPhase3_body hd
    exact Ends.of_completed _ ((digitCount_body ha).trans (h1.after_withTr.trans (h2.trans h3)))
  · obtain rfl := (Host.Outcome.next.inj h).symm
    exact Ends.of_raised _ (digitCount_body ha)
  · simp at h

theorem wrm_ends {w : Width} {mode : Mode} {s t : State} (h : wrm w mode s = .next t) : Ends s t := by
  obtain ⟨-, -, h⟩ := withValueAndLength_eq_next h
  exact Ends.of_capacity (rest := fun s => magicEmit 0 s.tr.v s) (body_withTr ..) (fun u hu => magicEmit_body hu) h

theorem wrf10_ends {mode : Mode} {s t : State} (h : execWrf10U32 mode s = .next t) : Ends s t := by
  obtain ⟨-, -, h⟩ := withValueAndLength_eq_next h
  exact Ends.of_capacity (rest := fun s => fixed10Emit 0 (s.tr.v.setWidth 64) s) (Body.refl _)
    (fun u hu => fixed10Emit_body hu) h

theorem wrw_ends {w : Width} {mode : Mode} {s t : State} (h : wrw w mode s = .next t) : Ends s t := by
  obtain ⟨-, -, h⟩ := withValueAndLength_eq_next h
  obtain ⟨a, ha, h⟩ := andThen_eq_next.1 h
  dsimp only at h
  have hbody := (splitLoop_body ha).after_withTr
  rcases capacity_cases mode _ (a.withTr _) _ with ⟨-, e⟩ | ⟨-, -, e⟩ | ⟨-, -, e⟩ <;> rw [e] at h
  · obtain ⟨b, hb, h⟩ := andThen_eq_next.1 h
    obtain ⟨c, hc, h⟩ := andThen_eq_next.1 h
    obtain rfl := (Host.Outcome.next.inj h).symm
    obtain ⟨l1, h1⟩ := magicEmit_body hb
    obtain ⟨l2, h2⟩ := stitchLoop_body hc
    exact Ends.of_completed _ (hbody.trans (h1.after_withTr.trans h2))
  · obtain rfl := (Host.Outcome.next.inj h).symm
    exact Ends.of_raised _ (hbody.trans (body_withTr ..))
  · simp at h

/-- All an instruction can do where it answers a next state. -/
theorem exec_ends {i : Instr} {s t : State} (h : exec i s = .next t) : Ends s t := by
  cases i with
  | lutrdU8 mode => exact lutrd_ends h
  | dcountU8 mode => exact dcount_ends h
  | dcountU16 mode => exact dcount_ends h
  | dcountU32 mode => exact dcount_ends h
  | dcountU64 mode => exact dcount_ends h
  | dcountU128 mode => exact dcount_ends h
  | wrntU8 mode => exact wrnt_ends h
  | wrntU16 mode => exact wrnt_ends h
  | wrntU32 mode => exact wrnt_ends h
  | wrntU64 mode => exact wrnt_ends h
  | wrntU128 mode => exact wrnt_ends h
  | wrnxU8 mode => exact wrnx_ends h
  | wrnxU16 mode => exact wrnx_ends h
  | wrnxU32 mode => exact wrnx_ends h
  | wrnxU64 mode => exact wrnx_ends h
  | wrnxU128 mode => exact wrnx_ends h
  | wrpU8 mode => exact wrp_ends h
  | wrpU16 mode => exact wrp_ends h
  | wrpU32 mode => exact wrp_ends h
  | wrpU64 mode => exact wrp_ends h
  | wrpU128 mode => exact wrp_ends h
  | wrmU8 mode => exact wrm_ends h
  | wrmU16 mode => exact wrm_ends h
  | wrmU32 mode => exact wrm_ends h
  | wrf10U32 mode => exact wrf10_ends h
  | wrwU64 mode => exact wrw_ends h
  | wrwU128 mode => exact wrw_ends h

end Sys2Proof.Machine
end

