-- ==== Sys2Proof/Laws/Magic.lean ====
section
/-! SUPPORT. The two emitters of the magic_multiply_digit_extractor, shared by WRM, WRF10 and WRW: each answers a next state
with exactly the stores of its text (44_magic_multiply_digit_extractor.md R158, R161, R163, R164). -/

namespace Sys2Proof.Machine

theorem setWidth64_toNat {v : Value} (h : v.toNat < 2 ^ 32) : (v.setWidth 64).toNat = v.toNat := by
  rw [BitVec.toNat_setWidth]; exact Nat.mod_eq_of_lt (by omega)

/-- The digit count by comparisons (R151, R152) is `digits`. -/
theorem bandDigits_eq {v : Nat} (h : v < 2 ^ 32) : bandDigits v = digits v := by
  rcases Nat.lt_or_ge v 10 with h1 | h1
  · rw [digits_of_lt_ten h1]; simp [bandDigits, pairBand, h1, show v < 100 by omega]
  · have key : ∀ n, 10 ^ n ≤ v → v < 10 ^ (n + 1) → digits v = n + 1 := fun n => digits_eq_of_bounds
    unfold bandDigits pairBand
    split_ifs <;> norm_num at * <;>
      first
        | omega
        | exact (key 1 (by omega) (by omega)).symm
        | exact (key 2 (by omega) (by omega)).symm
        | exact (key 3 (by omega) (by omega)).symm
        | exact (key 4 (by omega) (by omega)).symm
        | exact (key 5 (by omega) (by omega)).symm
        | exact (key 6 (by omega) (by omega)).symm
        | exact (key 7 (by omega) (by omega)).symm
        | exact (key 8 (by omega) (by omega)).symm
        | exact (key 9 (by omega) (by omega)).symm

/-- What a row of BAND guarantees (R153, R155, R160): no wrap-around in the product, and a product that stands for the value. -/
def RowExact (row : BandRow) : Prop :=
  ∀ magic, row.magic = some magic → ∀ v, row.lower ≤ v → v < row.upper → v < 2 ^ 32 →
    v * magic.mult.toNat < 2 ^ 64 ∧ Stands (v * magic.mult.toNat / 2 ^ magic.sh) v row.k

theorem bandTable_exact : ∀ row ∈ bandTable, RowExact row := by
  intro row hrow
  simp only [bandTable, List.mem_cons, List.not_mem_nil, or_false] at hrow
  rcases hrow with rfl | rfl | rfl | rfl | rfl | rfl | rfl | rfl | rfl | rfl <;> rintro magic hm v hlo hhi -
  · cases hm
  · cases hm
  all_goals
    obtain rfl := Option.some.inj hm
    simp [Stands] at *
    omega

/-- The row of a digit count has its digit count, and bounds that hold every value of that count below 2^32. -/
theorem bandRow_of_digits {v : Nat} (hlo : 100 ≤ v) (h : v < 2 ^ 32) :
    ∃ row magic, bandRow (digits v) = some row ∧ row ∈ bandTable ∧ row.n = digits v ∧ row.magic = some magic ∧
      row.lower ≤ v ∧ v < row.upper ∧ row.k % 2 = 0 ∧ digits v = row.k + (if digits v % 2 = 1 then 1 else 2) := by
  have h2 := lt_pow_digits v
  have h1 := pow_digits_le (v := v) (by omega)
  have h3 : 3 ≤ digits v := by
    by_contra hn
    have : 10 ^ digits v ≤ 10 ^ 2 := Nat.pow_le_pow_right (by omega) (by omega)
    omega
  have h4 : digits v ≤ 10 := digits_le_of_lt_pow (by omega) (by norm_num at h ⊢; omega)
  generalize digits v = n at *
  interval_cases n <;> norm_num at h1 h2 <;>
    exact ⟨_, _, rfl, by decide, rfl, rfl, by dsimp only; omega, by dsimp only; omega, rfl, rfl⟩

theorem emitBand_ok {row : BandRow} {magic : Magic} {v : Value} {s : State} (hrow : RowExact row)
    (hm : row.magic = some magic) (hlo : row.lower ≤ v.toNat) (hhi : v.toNat < row.upper) (hv : v.toNat < 2 ^ 32)
    (hk : row.k % 2 = 0) (hd : digits v.toNat = row.k + (if digits v.toNat % 2 = 1 then 1 else 2))
    (hn : row.n = digits v.toNat) (hlen : s.tr.cur + digits v.toNat ≤ s.blen) :
    ∃ t, emitBand row.n row.k magic v s = .next t ∧
      Body (textUp .buf s.tr.cur v.toNat (digits v.toNat)) s t ∧
      t.tr.cur = s.tr.cur + digits v.toNat ∧ KeepsWide s t := by
  obtain ⟨hover, hst⟩ := hrow magic hm v.toNat hlo hhi hv
  have hprod : ((v.setWidth 64 * magic.mult) >>> magic.sh).toNat = v.toNat * magic.mult.toNat / 2 ^ magic.sh := by
    rw [BitVec.toNat_ushiftRight, Nat.shiftRight_eq_div_pow, BitVec.toNat_mul, setWidth64_toNat hv, Nat.mod_eq_of_lt hover]
  have hlead := hst.lead
  obtain ⟨half, hhalf⟩ : ∃ half, row.k = 2 * half := ⟨row.k / 2, by omega⟩
  have hlt := lt_pow_digits v.toNat
  have hlead100 : v.toNat / 10 ^ row.k < 100 ∧ (digits v.toNat % 2 = 1 → v.toNat / 10 ^ row.k < 10) := by
    have hp : 0 < 10 ^ row.k := Nat.pow_pos (by omega)
    rw [hd] at hlt
    constructor
    · rw [Nat.div_lt_iff_lt_mul hp]
      refine lt_of_lt_of_le hlt ?_
      rw [show (100 : Nat) = 10 ^ 2 by norm_num, ← Nat.pow_add]
      exact Nat.pow_le_pow_right (by omega) (by split <;> omega)
    · intro hodd
      rw [if_pos hodd] at hlt
      rw [Nat.div_lt_iff_lt_mul hp]
      rw [Nat.pow_succ] at hlt; omega
  have hleadreg : (((v.setWidth 64 * magic.mult) >>> magic.sh >>> 32).setWidth 7).toNat = v.toNat / 10 ^ row.k := by
    rw [BitVec.toNat_setWidth, shift32_toNat, hprod, hlead]
    exact Nat.mod_eq_of_lt (by omega)
  unfold emitBand
  dsimp only
  simp only [withTr_tr, hleadreg]
  have hfin : ∀ (lead : Nat) {u : State}, lead + 2 * half = digits v.toNat →
      Body (textUp .buf s.tr.cur (v.toNat / 10 ^ row.k) lead) s u → u.tr.cur = s.tr.cur + lead →
      u.tr.prod.toNat = v.toNat * magic.mult.toNat / 2 ^ magic.sh → KeepsWide s u →
      ∃ t, refineLoop (row.k / 2) u = .next t ∧
        Body (textUp .buf s.tr.cur v.toNat (digits v.toNat)) s t ∧
        t.tr.cur = s.tr.cur + digits v.toNat ∧ KeepsWide s t := by
    intro lead u hsum hub huc hup huk
    obtain ⟨t, ht, hb, hc, hk'⟩ := refineLoop_ok (steps := half) (x := v.toNat) (s := u)
      (by rw [hup, ← hhalf]; exact hst) (by rw [hub.blen, huc]; omega)
    refine ⟨t, by rw [hhalf, Nat.mul_div_cancel_left half (by omega)]; exact ht, ?_, by rw [hc, huc]; omega, huk.trans hk'⟩
    rw [← hsum, textUp_append]
    rw [huc] at hb
    rw [hhalf] at hub
    exact hub.trans hb
  rw [hn]
  split
  · rename_i hodd
    rw [if_pos hodd] at hd
    rw [put1_ok (hlead100.2 hodd) (by simp only [spaceSize, withTr_blen]; omega)]
    simp only [andThen_next, incCur]
    refine hfin 1 (by omega) ?_ rfl hprod ⟨rfl, rfl, rfl, rfl, rfl, rfl⟩
    rw [textUp_one (hlead100.2 hodd)]
    exact ((body_stored ..).after_withTr.after_withTr).trans (body_withTr ..)
  · rename_i hodd
    rw [if_neg hodd] at hd
    rw [put2_ok hlead100.1 (by simp only [spaceSize, withTr_blen]; omega)]
    simp only [andThen_next, incCur]
    refine hfin 2 (by omega) ?_ rfl hprod ⟨rfl, rfl, rfl, rfl, rfl, rfl⟩
    rw [textUp_two hlead100.1]
    exact (((body_stored ..).after_withTr.after_withTr).trans (body_stored ..)).trans (body_withTr ..)

/-- `magic_emit(base, v)` writes dec(v) upward from `base` (R158, R161). -/
theorem magicEmit_ok {base : Nat} {v : Value} {s : State} (hv : v.toNat < 2 ^ 32) (hlen : base + digits v.toNat ≤ s.blen) :
    ∃ t, magicEmit base v s = .next t ∧ Body (textUp .buf base v.toNat (digits v.toNat)) s t ∧
      t.tr.cur = base + digits v.toNat ∧ KeepsWide s t := by
  unfold magicEmit
  dsimp only
  split
  · split
    · rename_i h10
      rw [digits_of_lt_ten h10] at hlen ⊢
      rw [put1_ok h10 (by simp only [spaceSize, withTr_blen, withTr_tr]; omega)]
      refine ⟨_, rfl, ?_, rfl, ⟨rfl, rfl, rfl, rfl, rfl, rfl⟩⟩
      rw [textUp_one h10]
      exact (body_stored ..).after_withTr.trans (body_withTr ..)
    · rename_i h100 h10
      have hd : digits v.toNat = 2 := digits_eq_of_bounds (n := 1) (by omega) (by omega)
      rw [hd] at hlen ⊢
      rw [put2_ok h100 (by simp only [spaceSize, withTr_blen, withTr_tr]; omega)]
      refine ⟨_, rfl, ?_, rfl, ⟨rfl, rfl, rfl, rfl, rfl, rfl⟩⟩
      rw [textUp_two h100]
      exact ((body_stored ..).after_withTr.trans (body_stored ..)).trans (body_withTr ..)
  · rename_i h100
    obtain ⟨row, magic, hb, hmem, hn, hm, hlo, hhi, hk, hd⟩ := bandRow_of_digits (v := v.toNat) (by omega) hv
    rw [bandDigits_eq hv, hb]
    obtain ⟨t, ht, hbody, hc, hkeep⟩ := emitBand_ok (s := s.withTr { s.tr with cur := base }) (bandTable_exact row hmem)
      hm hlo hhi hv hk hd hn (by simpa using hlen)
    obtain ⟨n, lower, upper, p, k, mg⟩ := row
    obtain rfl : mg = some magic := hm
    exact ⟨t, ht, hbody.after_withTr, hc, ⟨hkeep.v, hkeep.n, hkeep.chunk, hkeep.m, hkeep.p, hkeep.sav⟩⟩

/-! ### The fixed-width datapath -/

theorem fixedLoop_ok : ∀ {steps off x : Nat} {s : State}, Stands s.tr.prod.toNat x (2 * steps) →
    off + 2 * steps ≤ s.blen →
    ∃ t, fixedLoop steps off s = .next t ∧
      Body (textUp .buf off (x % 10 ^ (2 * steps)) (2 * steps)) s t ∧ t.tr.cur = s.tr.cur ∧ KeepsWide s t := by
  intro steps
  induction steps with
  | zero => intro off x s _ _; exact ⟨s, rfl, Body.refl s, rfl, ⟨rfl, rfl, rfl, rfl, rfl, rfl⟩⟩
  | succ k ih =>
    intro off x s hst hlen
    have href : Stands (s.tr.prod.toNat % 2 ^ 32 * 100) (x % 10 ^ (2 * k + 2)) (2 * k) := hst.refine
    have hlead := href.lead
    have hlt : x % 10 ^ (2 * k + 2) < 10 ^ (2 * k + 2) := Nat.mod_lt _ (Nat.pow_pos (by omega))
    have h100 := div_lt_hundred hlt
    unfold fixedLoop
    dsimp only
    simp only [withTr_tr, shift32_toNat, refine_toNat, hlead]
    rw [put2_ok h100 (by simp only [spaceSize, withTr_blen]; omega), andThen_next]
    generalize hu : State.stored _ _ _ _ = u
    have hub : Body (textUp .buf off (x % 10 ^ (2 * k + 2) / 10 ^ (2 * k)) 2) s u := by
      subst hu; rw [textUp_two h100]
      exact (body_stored ..).after_withTr.trans (body_stored ..)
    have hup : u.tr.prod.toNat = s.tr.prod.toNat % 2 ^ 32 * 100 := by subst hu; exact refine_toNat _
    have huc : u.tr.cur = s.tr.cur := by subst hu; rfl
    have huk : KeepsWide s u := by subst hu; exact ⟨rfl, rfl, rfl, rfl, rfl, rfl⟩
    obtain ⟨t, ht, hb, hc, hk⟩ := ih (off := off + 2) (x := x % 10 ^ (2 * k + 2)) (s := u) (by rw [hup]; exact href)
      (by rw [hub.blen]; omega)
    refine ⟨t, ht, ?_, by rw [hc, huc], huk.trans hk⟩
    have happ := textUp_append .buf off (x % 10 ^ (2 * k + 2)) 2 (2 * k)
    rw [show 2 * (k + 1) = 2 + 2 * k by omega]
    rw [show 2 * k + 2 = 2 + 2 * k by omega] at happ hub hb
    rw [happ]
    exact hub.trans hb

/-- The first product of the fixed-width datapath, in 64 bits (R164: no wrap-around). -/
theorem fixed10_product {v : BitVec 64} (hv : v.toNat < 2 ^ 32) :
    (((v * fixed10Mult) >>> fixed10Shift) + fixed10Addend).toNat = v.toNat * 1441151881 / 2 ^ 25 + 1 := by
  have h1 : fixed10Mult.toNat = 1441151881 := by decide
  have h2 : fixed10Addend.toNat = 1 := by decide
  have h3 : v.toNat * 1441151881 < 2 ^ 64 := by omega
  rw [BitVec.toNat_add, BitVec.toNat_ushiftRight, Nat.shiftRight_eq_div_pow, BitVec.toNat_mul, h1, h2, fixed10Shift,
    Nat.mod_eq_of_lt h3]
  exact Nat.mod_eq_of_lt (by omega)

/-- It stands for every value below 2^32 (R164). -/
theorem fixed10_stands {v : Nat} (hv : v < 2 ^ 32) : Stands (v * 1441151881 / 2 ^ 25 + 1) v 8 := by
  simp [Stands] at *; omega

/-- Ten digits from a product that stands for the value: the first pair, then four refinements. -/
theorem fixedPairs_ok {base x : Nat} {prod : BitVec 64} {s : State} (hst : Stands prod.toNat x (2 * 4))
    (hx : x < 10 ^ (2 * 4 + 2)) (hlen : base + 10 ≤ s.blen) :
    ∃ t, (andThen (put2 .buf base (prod >>> 32).toNat (s.withTr { s.tr with prod := prod })) fun s =>
        fixedLoop 4 (base + 2) s) = .next t ∧
      Body (textUp .buf base x (2 + 2 * 4)) s t ∧ t.tr.cur = s.tr.cur ∧ KeepsWide s t := by
  have h100 := div_lt_hundred hx
  rw [shift32_toNat, hst.lead, put2_ok h100 (by simp only [spaceSize, withTr_blen]; omega), andThen_next]
  generalize hu : State.stored _ _ _ _ = u
  have hub : Body (textUp .buf base (x / 10 ^ (2 * 4)) 2) s u := by
    subst hu; rw [textUp_two h100]
    exact (body_stored ..).after_withTr.trans (body_stored ..)
  have hup : u.tr.prod = prod := by subst hu; rfl
  have huk : KeepsWide s u := by subst hu; exact ⟨rfl, rfl, rfl, rfl, rfl, rfl⟩
  have huc : u.tr.cur = s.tr.cur := by subst hu; rfl
  obtain ⟨t, ht, hb, hc, hk⟩ := fixedLoop_ok (steps := 4) (off := base + 2) (x := x) (s := u)
    (by rw [hup]; exact hst) (by rw [hub.blen]; omega)
  refine ⟨t, ht, ?_, by rw [hc, huc], huk.trans hk⟩
  rw [textUp_append]
  exact hub.trans hb

/-- `fixed10_emit(base, v)` writes dec_fixed(v, 10) upward from `base` (R163, R164). -/
theorem fixed10Emit_ok {base : Nat} {v : BitVec 64} {s : State} (hv : v.toNat < 2 ^ 32) (hlen : base + 10 ≤ s.blen) :
    ∃ t, fixed10Emit base v s = .next t ∧ Body (textUp .buf base v.toNat 10) s t ∧ t.tr.cur = s.tr.cur ∧
      KeepsWide s t := by
  have hst := fixed10_stands hv
  rw [← fixed10_product hv] at hst
  exact fixedPairs_ok hst (lt_trans hv (by norm_num)) hlen

end Sys2Proof.Machine
end

