-- ==== Sys2Proof/Laws/PerInstr.lean ====
section
/-! SUPPORT. Facts of every instruction as syntax, one lemma per constructor. The family TableRow: the word of a well-formed
command is selected by its row's match and mask (spec 30_encoding.md R75). -/

namespace Sys2Proof.Laws.TableRow

/-- `w & mask = match` for the word of the instruction (R75). -/
def Statement (i : Instr) : Prop := WellFormed i → encode i &&& maskWord i = matchWord i

theorem lutrdU8 (mode : Mode) : Statement (.lutrdU8 mode) := by cases mode <;> (unfold Statement; decide)

theorem dcountU8 (mode : Mode) : Statement (.dcountU8 mode) := by cases mode <;> (unfold Statement; decide)

theorem dcountU16 (mode : Mode) : Statement (.dcountU16 mode) := by cases mode <;> (unfold Statement; decide)

theorem dcountU32 (mode : Mode) : Statement (.dcountU32 mode) := by cases mode <;> (unfold Statement; decide)

theorem dcountU64 (mode : Mode) : Statement (.dcountU64 mode) := by cases mode <;> (unfold Statement; decide)

theorem dcountU128 (mode : Mode) : Statement (.dcountU128 mode) := by cases mode <;> (unfold Statement; decide)

theorem wrntU8 (mode : Mode) : Statement (.wrntU8 mode) := by cases mode <;> (unfold Statement; decide)

theorem wrntU16 (mode : Mode) : Statement (.wrntU16 mode) := by cases mode <;> (unfold Statement; decide)

theorem wrntU32 (mode : Mode) : Statement (.wrntU32 mode) := by cases mode <;> (unfold Statement; decide)

theorem wrntU64 (mode : Mode) : Statement (.wrntU64 mode) := by cases mode <;> (unfold Statement; decide)

theorem wrntU128 (mode : Mode) : Statement (.wrntU128 mode) := by cases mode <;> (unfold Statement; decide)

theorem wrnxU8 (mode : Mode) : Statement (.wrnxU8 mode) := by cases mode <;> (unfold Statement; decide)

theorem wrnxU16 (mode : Mode) : Statement (.wrnxU16 mode) := by cases mode <;> (unfold Statement; decide)

theorem wrnxU32 (mode : Mode) : Statement (.wrnxU32 mode) := by cases mode <;> (unfold Statement; decide)

theorem wrnxU64 (mode : Mode) : Statement (.wrnxU64 mode) := by cases mode <;> (unfold Statement; decide)

theorem wrnxU128 (mode : Mode) : Statement (.wrnxU128 mode) := by cases mode <;> (unfold Statement; decide)

theorem wrpU8 (mode : Mode) : Statement (.wrpU8 mode) := by cases mode <;> (unfold Statement; decide)

theorem wrpU16 (mode : Mode) : Statement (.wrpU16 mode) := by cases mode <;> (unfold Statement; decide)

theorem wrpU32 (mode : Mode) : Statement (.wrpU32 mode) := by cases mode <;> (unfold Statement; decide)

theorem wrpU64 (mode : Mode) : Statement (.wrpU64 mode) := by cases mode <;> (unfold Statement; decide)

theorem wrpU128 (mode : Mode) : Statement (.wrpU128 mode) := by cases mode <;> (unfold Statement; decide)

theorem wrmU8 (mode : Mode) : Statement (.wrmU8 mode) := by cases mode <;> (unfold Statement; decide)

theorem wrmU16 (mode : Mode) : Statement (.wrmU16 mode) := by cases mode <;> (unfold Statement; decide)

theorem wrmU32 (mode : Mode) : Statement (.wrmU32 mode) := by cases mode <;> (unfold Statement; decide)

theorem wrf10U32 (mode : Mode) : Statement (.wrf10U32 mode) := by cases mode <;> (unfold Statement; decide)

theorem wrwU64 (mode : Mode) : Statement (.wrwU64 mode) := by cases mode <;> (unfold Statement; decide)

theorem wrwU128 (mode : Mode) : Statement (.wrwU128 mode) := by cases mode <;> (unfold Statement; decide)

end Sys2Proof.Laws.TableRow
end

