-- ==== Sys2Proof/Tests/Slice0.lean ====
section
/-! SUPPORT. Tests: the well-formedness smoke test, the decoding of every row, the printed tables, at most two runs of each
command from spec/95_test_vectors.md (the vector is named in each docstring), the host's moves, and for every obligation with
hypotheses a state and operands that meet them all (theorems `witness_...`). -/

set_option Elab.async false

namespace Sys2Proof.Tests

open Machine

/-! ### Well-formedness: UNCHK is refused on DCOUNT and nowhere else (30_encoding.md R73) -/

theorem test_ill_formed_dcountU8 : ¬ WellFormed (.dcountU8 .unchecked) := by decide

theorem test_ill_formed_dcountU16 : ¬ WellFormed (.dcountU16 .unchecked) := by decide

theorem test_ill_formed_dcountU32 : ¬ WellFormed (.dcountU32 .unchecked) := by decide

theorem test_ill_formed_dcountU64 : ¬ WellFormed (.dcountU64 .unchecked) := by decide

theorem test_ill_formed_dcountU128 : ¬ WellFormed (.dcountU128 .unchecked) := by decide

theorem test_well_formed_checked : WellFormed (.dcountU8 .checked) ∧ WellFormed (.wrpU32 .unchecked) := by decide

/-! ### Decoding: the words of 30_encoding.md R75, every row in every mode -/

theorem test_decode_lutrd :
    decode 0x0001 = .legal (.lutrdU8 .checked) ∧
      decode 0x0081 = .legal (.lutrdU8 .unchecked) := by decide

theorem test_decode_dcount :
    decode 0x0002 = .legal (.dcountU8 .checked) ∧
      decode 0x0012 = .legal (.dcountU16 .checked) ∧
      decode 0x0022 = .legal (.dcountU32 .checked) ∧
      decode 0x0032 = .legal (.dcountU64 .checked) ∧
      decode 0x0042 = .legal (.dcountU128 .checked) := by decide

theorem test_decode_wrnt :
    decode 0x0003 = .legal (.wrntU8 .checked) ∧
      decode 0x0083 = .legal (.wrntU8 .unchecked) ∧
      decode 0x0013 = .legal (.wrntU16 .checked) ∧
      decode 0x0093 = .legal (.wrntU16 .unchecked) ∧
      decode 0x0023 = .legal (.wrntU32 .checked) ∧
      decode 0x00A3 = .legal (.wrntU32 .unchecked) ∧
      decode 0x0033 = .legal (.wrntU64 .checked) ∧
      decode 0x00B3 = .legal (.wrntU64 .unchecked) ∧
      decode 0x0043 = .legal (.wrntU128 .checked) ∧
      decode 0x00C3 = .legal (.wrntU128 .unchecked) := by decide

theorem test_decode_wrnx :
    decode 0x0004 = .legal (.wrnxU8 .checked) ∧
      decode 0x0084 = .legal (.wrnxU8 .unchecked) ∧
      decode 0x0014 = .legal (.wrnxU16 .checked) ∧
      decode 0x0094 = .legal (.wrnxU16 .unchecked) ∧
      decode 0x0024 = .legal (.wrnxU32 .checked) ∧
      decode 0x00A4 = .legal (.wrnxU32 .unchecked) ∧
      decode 0x0034 = .legal (.wrnxU64 .checked) ∧
      decode 0x00B4 = .legal (.wrnxU64 .unchecked) ∧
      decode 0x0044 = .legal (.wrnxU128 .checked) ∧
      decode 0x00C4 = .legal (.wrnxU128 .unchecked) := by decide

theorem test_decode_wrp :
    decode 0x0005 = .legal (.wrpU8 .checked) ∧
      decode 0x0085 = .legal (.wrpU8 .unchecked) ∧
      decode 0x0015 = .legal (.wrpU16 .checked) ∧
      decode 0x0095 = .legal (.wrpU16 .unchecked) ∧
      decode 0x0025 = .legal (.wrpU32 .checked) ∧
      decode 0x00A5 = .legal (.wrpU32 .unchecked) ∧
      decode 0x0035 = .legal (.wrpU64 .checked) ∧
      decode 0x00B5 = .legal (.wrpU64 .unchecked) ∧
      decode 0x0045 = .legal (.wrpU128 .checked) ∧
      decode 0x00C5 = .legal (.wrpU128 .unchecked) := by decide

theorem test_decode_wrm :
    decode 0x0006 = .legal (.wrmU8 .checked) ∧
      decode 0x0086 = .legal (.wrmU8 .unchecked) ∧
      decode 0x0016 = .legal (.wrmU16 .checked) ∧
      decode 0x0096 = .legal (.wrmU16 .unchecked) ∧
      decode 0x0026 = .legal (.wrmU32 .checked) ∧
      decode 0x00A6 = .legal (.wrmU32 .unchecked) := by decide

theorem test_decode_wrf10 :
    decode 0x0027 = .legal (.wrf10U32 .checked) ∧
      decode 0x00A7 = .legal (.wrf10U32 .unchecked) := by decide

theorem test_decode_wrw :
    decode 0x0038 = .legal (.wrwU64 .checked) ∧
      decode 0x00B8 = .legal (.wrwU64 .unchecked) ∧
      decode 0x0048 = .legal (.wrwU128 .checked) ∧
      decode 0x00C8 = .legal (.wrwU128 .unchecked) := by decide

/-- The fields written out, most significant first: ZERO, UNCHK, WSEL, OP (R70), one word for each operation of R71. -/
theorem test_decode_fields :
    decode (0b00000000#8 ++ 0b0#1 ++ 0b000#3 ++ 0b0001#4) = .legal (.lutrdU8 .checked) ∧
      decode (0b00000000#8 ++ 0b0#1 ++ 0b011#3 ++ 0b0010#4) = .legal (.dcountU64 .checked) ∧
      decode (0b00000000#8 ++ 0b1#1 ++ 0b001#3 ++ 0b0011#4) = .legal (.wrntU16 .unchecked) ∧
      decode (0b00000000#8 ++ 0b0#1 ++ 0b100#3 ++ 0b0100#4) = .legal (.wrnxU128 .checked) ∧
      decode (0b00000000#8 ++ 0b1#1 ++ 0b010#3 ++ 0b0101#4) = .legal (.wrpU32 .unchecked) ∧
      decode (0b00000000#8 ++ 0b0#1 ++ 0b000#3 ++ 0b0110#4) = .legal (.wrmU8 .checked) ∧
      decode (0b00000000#8 ++ 0b1#1 ++ 0b010#3 ++ 0b0111#4) = .legal (.wrf10U32 .unchecked) ∧
      decode (0b00000000#8 ++ 0b0#1 ++ 0b011#3 ++ 0b1000#4) = .legal (.wrwU64 .checked) := by decide

/-- The illegal words of V120 to V130, and the words beside them the vectors name. -/
theorem test_decode_illegal :
    ([0x0125, 0x8001].map decode).all (· == .illegal .reservedBits) ∧
      ([0x0000, 0x0009, 0x000A, 0x000F, 0x0055, 0x0065, 0x0075, 0x0011, 0x0036, 0x0046, 0x0017, 0x0007, 0x0037, 0x0047, 0x0028,
        0x0008, 0x0018, 0x00D5].map decode).all (· == .illegal .opWidth) ∧
      ([0x00A2, 0x0082, 0x0092, 0x00B2, 0x00C2].map decode).all (· == .illegal .modeOnDcount) := by decide

theorem test_decodeTableWord :
    decodeTableWord 16 0x0025 = some (.wrpU32 .checked) ∧ decodeTableWord 8 0xA5 = some (.wrpU32 .unchecked) ∧
      decodeTableWord 16 0x0125 = none ∧ decodeTableWord 32 0x0025 = none := by decide

theorem test_encode_maps_back :
    encode (.wrwU128 .unchecked) = 0x00C8 ∧ encode (.lutrdU8 .checked) = 0x0001 := by decide

/-- The whole map at once: no row's word is selected by another row (R75). -/
theorem test_match_words_distinct :
    ((List.range 256).filter fun c => match decode (BitVec.ofNat 16 c) with | .legal _ => true | .illegal _ => false).length
      = 49 := by decide +kernel

/-! ### The printed tables -/

/-- A number whose decimal digits are a list of characters. -/
def numeral (l : List Byte) : Nat := l.foldl (fun acc b => acc * 10 + (b.toNat - 0x30)) 0

/-- The ten rows of R22, each read as a numeral. -/
theorem test_lut_rows :
    ((List.range 10).map fun row => numeral ((List.range 20).map fun j => lut (20 * row + j))) =
      [00010203040506070809, 10111213141516171819, 20212223242526272829, 30313233343536373839, 40414243444546474849,
       50515253545556575859, 60616263646566676869, 70717273747576777879, 80818283848586878889, 90919293949596979899] := by
  decide +kernel

/-- The decimal column of R24. -/
theorem test_dct32_entries :
    ((List.range 32).map fun l => (dct32 l).map BitVec.toNat) =
      ([4294967296, 8589934582, 8589934582, 8589934582, 12884901788, 12884901788, 12884901788, 17179868184, 17179868184,
        17179868184, 21474826480, 21474826480, 21474826480, 21474826480, 25769703776, 25769703776, 25769703776] ++
       [30063771072, 30063771072, 30063771072, 34349738368, 34349738368, 34349738368, 34349738368, 38554705664, 38554705664,
        38554705664, 41949672960, 41949672960, 41949672960, 42949672960, 42949672960]).map some := by
  decide +kernel

/-- Entries of R25, and the bounds of DCT32 and PT. -/
theorem test_table_bounds :
    pt 0 = some 10 ∧ pt 18 = some 10000000000000000000 ∧ pt 38 = some 1000000000000000000000000000000000000000 ∧
      pt 39 = none ∧ dct32 32 = none := by decide +kernel

/-- The quotients of R153: each multiplier is the ceiling of 2^S / 10^k, plus one in an odd band. -/
theorem test_band_multipliers :
    ∀ row ∈ bandTable, ∀ magic ∈ row.magic,
      magic.sh = magic.s - 32 ∧
        magic.mult.toNat = (2 ^ magic.s + 10 ^ row.k - 1) / 10 ^ row.k + row.n % 2 := by decide +kernel

/-! ### Runs of single commands -/

/-- VAL and BLEN written, `length` bytes of BUF filled with 0xAA, nothing pending. -/
def start (v length : Nat) : State :=
  { State.reset with
    val := BitVec.ofNat 128 v, blen := length, valWritten := true, blenWritten := true
    buf := memFill [] 0 (List.replicate length 0xAA) }

/-- One step with the word on CMD, and a view of the next state. -/
def after {α : Type} (c v length : Nat) (view : State → α) : Option α :=
  match step ((start v length).withFetchWord 16 c) with
  | .next t => some (view t)
  | .fault _ => none
  | .refused _ => none

/-- RLEN, STATUS, and BUF[0..BLEN) with the digit characters as digits and 0xAA as 0xAA. -/
def shown (t : State) : Nat × Nat × List Nat :=
  (t.rlen, t.status.toNat, (List.range t.blen).map fun j =>
    match memRead t.buf j with
    | some b => if b = 0xAA then 0xAA else b.toNat - 0x30
    | none => 0xFF)

/-- RLEN, STATUS, and the number BUF[0..RLEN) writes. -/
def number (t : State) : Nat × Nat × Nat :=
  (t.rlen, t.status.toNat, numeral ((List.range t.rlen).filterMap fun j => memRead t.buf j))

/-- The stores to BUF in order, as offset and digit. -/
def bufStores (t : State) : List (Nat × Nat) :=
  t.trace.filterMap fun a =>
    match a with
    | .write .buf off b => some (off, b.toNat - 0x30)
    | .write .scr _ _ => none
    | .read _ _ => none

/-- Why an answer is a refusal. -/
def refusal (o : Answer) : Option Refusal :=
  match o with
  | .next _ => none
  | .fault _ => none
  | .refused r => some r

/-- V3: LUTRD of 42. -/
theorem test_lutrd_pair : after 0x0001 42 4 shown = some (2, 0x01, [4, 2, 0xAA, 0xAA]) := by decide +kernel

/-- V6: VAL[7:0] = 100 is IllegalCommand. -/
theorem test_lutrd_index : after 0x0001 356 2 shown = some (0, 0x09, [0xAA, 0xAA]) := by decide +kernel

/-- V10 and V15: one digit below a boundary, and bits above the width. -/
theorem test_dcount_u8 : after 0x0002 511 0 shown = some (3, 0x01, []) := by decide +kernel

/-- The value just below a power of ten (V10 to V14). -/
theorem test_dcount_u8_below : after 0x0002 99 0 shown = some (2, 0x01, []) := by decide +kernel

/-- V11: at a power of ten or the largest value. -/
theorem test_dcount_u16 : after 0x0012 10000 0 shown = some (5, 0x01, []) := by decide +kernel

/-- The value just below a power of ten (V10 to V14). -/
theorem test_dcount_u16_below : after 0x0012 9999 0 shown = some (4, 0x01, []) := by decide +kernel

/-- V12: at a power of ten or the largest value. -/
theorem test_dcount_u32 : after 0x0022 2147483647 0 shown = some (10, 0x01, []) := by decide +kernel

/-- The value just below a power of ten (V10 to V14). -/
theorem test_dcount_u32_below : after 0x0022 999999999 0 shown = some (9, 0x01, []) := by decide +kernel

/-- V13: at a power of ten or the largest value. -/
theorem test_dcount_u64 : after 0x0032 10000000000000000000 0 shown = some (20, 0x01, []) := by decide +kernel

/-- The value just below a power of ten (V10 to V14). -/
theorem test_dcount_u64_below : after 0x0032 9999999999999999999 0 shown = some (19, 0x01, []) := by decide +kernel

/-- V14: at a power of ten or the largest value. -/
theorem test_dcount_u128 : after 0x0042 340282366920938463463374607431768211455 0 shown = some (39, 0x01, []) := by decide +kernel

/-- The value just below a power of ten (V10 to V14). -/
theorem test_dcount_u128_below : after 0x0042 99999999999999999999999999999999999999 0 shown = some (38, 0x01, []) := by decide +kernel

/-- V33. -/
theorem test_wrnx_u8 : after 0x0004 255 3 bufStores = some [(2, 5), (1, 5), (0, 2)] := by decide +kernel

/-- V32. -/
theorem test_wrnx_u8_end : after 0x0004 10 3 shown = some (2, 0x01, [1, 0, 0xAA]) := by decide +kernel

/-- V34. -/
theorem test_wrnx_u16 : after 0x0014 65535 5 bufStores = some [(4, 5), (3, 3), (2, 5), (1, 5), (0, 6)] := by decide +kernel

/-- V35. -/
theorem test_wrnx_u32 : after 0x0024 1234567 10 shown = some (7, 0x01, [1, 2, 3, 4, 5, 6, 7, 0xAA, 0xAA, 0xAA]) := by decide +kernel

/-- V27g. -/
theorem test_wrnx_u64 : after 0x0034 10000000000000000000 20 number = some (20, 0x01, 10000000000000000000) := by decide +kernel

/-- V36. -/
theorem test_wrnx_u128 : after 0x0044 340282366920938463463374607431768211455 39 number = some (39, 0x01, 340282366920938463463374607431768211455) := by decide +kernel

/-- V30. -/
theorem test_wrnt_u8 : after 0x0003 0 3 shown = some (1, 0x01, [0, 0xAA, 0xAA]) := by decide +kernel

/-- V34: the copy is upward. -/
theorem test_wrnt_u16 : after 0x0013 65535 5 bufStores = some [(0, 6), (1, 5), (2, 5), (3, 3), (4, 5)] := by decide +kernel

/-- V93: the fault comes after the scratch writes. -/
theorem test_wrnt_u16_short : after 0x0013 65535 4 (fun t => (t.status.toNat, t.trace.length, shown t)) = some (0x05, 5, (0, 0x05, [0xAA, 0xAA, 0xAA, 0xAA])) := by decide +kernel

/-- V35. -/
theorem test_wrnt_u32 : after 0x0023 1234567 10 shown = some (7, 0x01, [1, 2, 3, 4, 5, 6, 7, 0xAA, 0xAA, 0xAA]) := by decide +kernel

/-- V27g. -/
theorem test_wrnt_u64 : after 0x0033 10000000000000000000 20 number = some (20, 0x01, 10000000000000000000) := by decide +kernel

/-- Program P4, line 8. -/
theorem test_wrnt_u128 : after 0x00C3 340282366920938463463374607431768211455 39 number = some (39, 0x01, 340282366920938463463374607431768211455) := by decide +kernel

/-- V61a. -/
theorem test_wrp_u8 : after 0x0005 255 3 bufStores = some [(1, 5), (2, 5), (0, 2)] := by decide +kernel

/-- V97. -/
theorem test_wrp_u8_short : after 0x0005 100 2 shown = some (0, 0x05, [0xAA, 0xAA]) := by decide +kernel

/-- V62b. -/
theorem test_wrp_u16 : after 0x0015 65535 5 bufStores = some [(3, 3), (4, 5), (1, 5), (2, 5), (0, 6)] := by decide +kernel

/-- The boundary of the check (2.9). -/
theorem test_wrp_u16_exact : after 0x0015 1000 4 shown = some (4, 0x01, [1, 0, 0, 0]) := by decide +kernel

/-- V63a, which separates the two `pair_hi` formulas of 90_conflicts.md C1. -/
theorem test_wrp_u32 : after 0x0025 1234567 10 bufStores = some [(5, 6), (6, 7), (3, 4), (4, 5), (1, 2), (2, 3), (0, 1)] := by decide +kernel

/-- V91. -/
theorem test_wrp_u32_empty : after 0x0025 0 0 shown = some (0, 0x05, []) := by decide +kernel

/-- V64. -/
theorem test_wrp_u64 : after 0x0035 18446744073709551615 20 number = some (20, 0x01, 18446744073709551615) := by decide +kernel

/-- V65. -/
theorem test_wrp_u128 : after 0x0045 340282366920938463463374607431768211455 39 number = some (39, 0x01, 340282366920938463463374607431768211455) := by decide +kernel

/-- V71b, Unchecked. -/
theorem test_wrm_u8 : after 0x0086 255 3 shown = some (3, 0x01, [2, 5, 5]) := by decide +kernel

/-- V72b. -/
theorem test_wrm_u16 : after 0x0016 65535 5 bufStores = some [(0, 6), (1, 5), (2, 5), (3, 3), (4, 5)] := by decide +kernel

/-- V74b, a value on which the even-band constant fails (R166). -/
theorem test_wrm_u32_band9 : after 0x0026 110574850 10 number = some (9, 0x01, 110574850) := by decide +kernel

/-- V75, a value on which the odd-band constant fails (R166). -/
theorem test_wrm_u32_band10 : after 0x0026 3999999999 10 number = some (10, 0x01, 3999999999) := by decide +kernel

/-- V80a, the value on which an addend of 0 fails (R164). -/
theorem test_wrf10 : after 0x0027 1 10 shown = some (10, 0x01, [0, 0, 0, 0, 0, 0, 0, 0, 0, 1]) := by decide +kernel

/-- V86. -/
theorem test_wrf10_longer : after 0x0027 42 12 shown = some (10, 0x01, [0, 0, 0, 0, 0, 0, 0, 0, 4, 2, 0xAA, 0xAA]) := by decide +kernel

/-- V104: the boundary byte is saved, overwritten and restored. -/
theorem test_wrw_u64 : after 0x0038 10000000000 20 bufStores = some [(0, 1), (1, 0), (1, 0), (2, 0), (3, 0), (4, 0), (5, 0), (6, 0), (7, 0), (8, 0), (9, 0), (10, 0), (1, 0)] := by decide +kernel

/-- V108: 26 accesses. -/
theorem test_wrw_u64_count : after 0x0038 18446744073709551615 20 (fun t => ((bufAccesses t).length, number t)) = some (26, 20, 0x01, 18446744073709551615) := by decide +kernel

/-- V111: 51 accesses. -/
theorem test_wrw_u128 : after 0x0048 340282366920938463463374607431768211455 39 (fun t => ((bufAccesses t).length, number t)) = some (51, 39, 0x01, 340282366920938463463374607431768211455) := by decide +kernel

/-- The need depends on the value, not on the width (2.9). -/
theorem test_wrw_u128_short : after 0x00C8 7 1 shown = some (1, 0x01, [7]) := by decide +kernel

/-- V122. -/
theorem test_illegal_word : after 0x0125 5 4 shown = some (0, 0x09, [0xAA, 0xAA, 0xAA, 0xAA]) := by decide +kernel

/-- 2.9: an Unchecked command with too small a buffer has no end state. -/
theorem test_unchecked_short : refusal (exec (.wrnxU8 .unchecked) (start 10 1)) = some .uncheckedCapacity := by decide +kernel

/-- 10_state.md R42: DCOUNT needs only VAL. -/
theorem test_unwritten :
    refusal (exec (.dcountU8 .checked) State.reset) = some .valNotWritten ∧
      refusal (exec (.wrpU8 .checked) { start 5 3 with blenWritten := false }) = some .blenNotWritten := by decide +kernel

/-! ### The host -/

/-- The whole of a script in steps of the machine, two for a command. -/
def hostRun (steps : Nat) (script : List HostMove) : Option State :=
  match core.run steps { State.reset with script := script } with
  | .next t => some t
  | .fault _ => none
  | .refused _ => none

/-- Program P3, lines 1 to 6: a count with BLEN unwritten, then a fault that leaves BUF alone. -/
theorem test_host_script :
    (hostRun 7 [.writeBuf 0 [0xAA, 0xAA], .writeVal 1000000000, .writeCmd 0x0022, .writeBlen 9, .writeCmd 0x0026]).map
      (fun t => (t.rlen, t.status.toNat, t.buf)) = some (0, 0x05, [(0, 0xAA), (1, 0xAA)]) := by decide +kernel

/-- The pseudo-command `PAIR.C 42, 2` (30_encoding.md R81), and the final state of its run (R222). -/
theorem test_pseudo_command :
    (hostRun 4 (writeScript (.lutrdU8 .checked) 42 2)).any (fun t =>
      t.runEnded && t.final == (42, 2, 2, 0x01, [some 0x34, some 0x32])) =
      true := by decide +kernel

/-- What the host reads (10_state.md R30, R31); the 0 of an unwritten VAL is log entry 2. -/
theorem test_host_read :
    hostRead .val State.reset = some 0 ∧ hostRead .val (start 5 1) = some 5 ∧ hostRead .blen (start 5 1) = some 1 ∧
      hostRead .cmd (start 5 1) = none ∧ hostRead .rlen (start 5 1) = some 0 ∧ hostRead .status (start 5 1) = some 0 := by
  decide

/-- The reset input leaves BUF alone (10_state.md R41). -/
theorem test_host_reset :
    (hostRun 4 [.writeBuf 3 [0x41], .writeVal 7, .writeStatus 0xFF, .reset]).map
      (fun t => (t.buf, t.valWritten, t.status.toNat)) = some ([(3, 0x41)], false, 0) := by decide +kernel

/-- A fill overwrites and keeps the canonical form. -/
theorem test_fill :
    memFill [(1, 0x31), (4, 0x34)] 0 [0x61, 0x62] = [(0, 0x61), (1, 0x62), (4, 0x34)] ∧
      Memory.wf [(1, 0x31), (1, 0x34)] = false := by decide

/-! ### Witnesses: the hypotheses of each obligation hold together -/

/-- An answer is a next state with a property. -/
def ends (p : State → Bool) (o : Answer) : Bool :=
  match o with
  | .next t => p t
  | .fault _ => false
  | .refused _ => false

theorem exists_of_ends {p : State → Bool} {o : Answer} (h : ends p o = true) : ∃ t, o = .next t ∧ p t = true := by
  cases o with
  | next t => exact ⟨t, rfl, h⟩
  | fault r => cases h
  | refused r => cases h

/-- `start` with host moves to come. -/
def scripted (script : List HostMove) : State := { start 5 4 with script := script }

theorem witness_ResetInputKeepsBuffer :
    (scripted [.reset]).cmd = none ∧ statusBusy (scripted [.reset]).status = false ∧
      (scripted [.reset]).script = .reset :: [] := by decide

theorem witness_StepKeepsInvariant :
    StateInv ((start (2 ^ 128 - 1) 39).withFetchWord 16 0x48) ∧
      ∃ t, step ((start (2 ^ 128 - 1) 39).withFetchWord 16 0x48) = .next t ∧ (t.rlen == 39) = true := by
  refine ⟨?_, exists_of_ends (by decide +kernel)⟩
  unfold StateInv
  decide +kernel

theorem witness_StepKeepsLengthsInLenw :
    6 ≤ 6 ∧ FitsLenw 6 (scripted [.writeBlen 63]) ∧
      ∃ t, step (scripted [.writeBlen 63]) = .next t ∧ (t.blen == 63) = true := by
  refine ⟨by decide, ⟨by decide, by decide, ?_⟩, exists_of_ends (by decide +kernel)⟩
  intro n h
  simp [scripted] at h
  omega

theorem witness_StepRunsDecodedCommand :
    ((start 5 4).withFetchWord 16 0x25).cmd = some 0x0025 ∧ decode 0x0025 = .legal (.wrpU32 .checked) := by decide

theorem witness_IdleStepChangesNothing : (start 5 4).cmd = none ∧ (start 5 4).script = [] := by decide

theorem witness_HostWritesRegisters :
    ∀ move ∈ [HostMove.writeVal 0, .writeBlen 0, .writeCmd 0xFFFF, .writeStatus 0xFF],
      (scripted [move]).cmd = none ∧ statusBusy (scripted [move]).status = false ∧
        (scripted [move]).script = move :: [] := by decide

theorem witness_HostFillWritesItsBytes :
    ∀ bytes ∈ [[], [0x41#8, 0x42#8]],
      (scripted [.writeBuf 3 bytes]).cmd = none ∧ statusBusy (scripted [.writeBuf 3 bytes]).status = false ∧
        (scripted [.writeBuf 3 bytes]).script = .writeBuf 3 bytes :: [] := by decide

/-- A state with STATUS.BUSY = 1 and a host move to come. -/
def busy (move : HostMove) : State := { scripted [move] with status := 0x02 }

theorem witness_ForbiddenHostMovesRefused :
    ((busy (.writeCmd 0x25)).cmd = none ∧ (busy (.writeCmd 0x25)).script = .writeCmd 0x25 :: [] ∧
      statusBusy (busy (.writeCmd 0x25)).status = true ∧ HostMove.writeCmd 0x25 ≠ .readReg .status) ∧
      ((scripted [.readReg .cmd]).cmd = none ∧ (scripted [.readReg .cmd]).script = .readReg .cmd :: [] ∧
        statusBusy (scripted [.readReg .cmd]).status = false) := by decide

theorem witness_IllegalWordTakesFaultArm :
    ((start 5 4).withFetchWord 16 0x0125).cmd = some 0x0125 ∧ decode 0x0125 = .illegal .reservedBits := by decide

theorem operandsWritten_of_start (v length : Nat) : OperandsWritten (start v length) := ⟨rfl, rfl⟩

theorem witness_LutrdWritesTableEntry :
    OperandsWritten (start 99 2) ∧ (start 99 2).val.toNat % 256 < 100 ∧ 2 ≤ (start 99 2).blen :=
  ⟨operandsWritten_of_start 99 2, by decide +kernel, by decide⟩

theorem witness_LutrdIndexOutOfTableIsIllegal :
    OperandsWritten (start 100 0) ∧ 100 ≤ (start 100 0).val.toNat % 256 :=
  ⟨operandsWritten_of_start 100 0, by decide +kernel⟩

theorem witness_DcountCountsDigits :
    Instr.dcountU128 .checked ∈ [Instr.dcountU8 .checked, .dcountU16 .checked, .dcountU32 .checked, .dcountU64 .checked,
      .dcountU128 .checked] ∧ (start (2 ^ 128 - 1) 0).valWritten = true := by decide

theorem witness_NaiveWritersWriteDecimal :
    Instr.wrntU128 .checked ∈ [Instr.wrnxU8 .checked, .wrnxU16 .checked, .wrnxU32 .checked, .wrnxU64 .checked,
        .wrnxU128 .checked, .wrntU8 .checked, .wrntU16 .checked, .wrntU32 .checked, .wrntU64 .checked, .wrntU128 .checked] ∧
      OperandsWritten (start (10 ^ 38) 39) ∧
      digits (valueOf (.wrntU128 .checked) (start (10 ^ 38) 39)) ≤ (start (10 ^ 38) 39).blen ∧
      digits (valueOf (.wrnxU8 .unchecked) (start 255 3)) ≤ (start 255 3).blen :=
  ⟨by decide, operandsWritten_of_start _ _, by decide +kernel, by decide +kernel⟩

theorem witness_PairedWriterWritesDecimal :
    Instr.wrpU16 .checked ∈ [Instr.wrpU8 .checked, .wrpU16 .checked, .wrpU32 .checked, .wrpU64 .checked, .wrpU128 .checked] ∧
      OperandsWritten (start 9999 4) ∧ digits (valueOf (.wrpU16 .checked) (start 9999 4)) ≤ (start 9999 4).blen :=
  ⟨by decide, operandsWritten_of_start _ _, by decide +kernel⟩

theorem witness_MagicWriterWritesDecimalUpward :
    Instr.wrmU32 .checked ∈ [Instr.wrmU8 .checked, .wrmU16 .checked, .wrmU32 .checked] ∧ OperandsWritten (start 4294967295 10) ∧
      digits (valueOf (.wrmU32 .checked) (start 4294967295 10)) ≤ (start 4294967295 10).blen :=
  ⟨by decide, operandsWritten_of_start _ _, by decide +kernel⟩

theorem witness_FixedWriterWritesTenDigits : OperandsWritten (start 0 10) ∧ 10 ≤ (start 0 10).blen :=
  ⟨operandsWritten_of_start _ _, by decide⟩

theorem witness_WideSplitterWritesDecimal :
    Instr.wrwU64 .unchecked ∈ [Instr.wrwU64 .unchecked, .wrwU128 .unchecked] ∧ OperandsWritten (start 4294967296 10) ∧
      digits (valueOf (.wrwU64 .unchecked) (start 4294967296 10)) ≤ (start 4294967296 10).blen ∧
      (digits (valueOf (.wrwU64 .unchecked) (start 4294967295 10)) ≤ (start 4294967295 10).blen ∧
        valueOf (.wrwU64 .unchecked) (start 4294967295 10) < 2 ^ 32) :=
  ⟨by decide, operandsWritten_of_start _ _, by decide +kernel, by decide +kernel⟩

theorem witness_ExactNaiveWriterStoresDownward :
    Instr.wrnxU16 .checked ∈ [Instr.wrnxU8 .checked, .wrnxU16 .checked, .wrnxU32 .checked, .wrnxU64 .checked, .wrnxU128 .checked] ∧
      ∃ t, exec (.wrnxU16 .checked) (start 1000 4) = .next t ∧ (t.status == 0x01) = true :=
  ⟨by decide, exists_of_ends (by decide +kernel)⟩

theorem witness_TempNaiveWriterCopiesScratch :
    Instr.wrntU16 .unchecked ∈ [Instr.wrntU8 .unchecked, .wrntU16 .unchecked, .wrntU32 .unchecked, .wrntU64 .unchecked, .wrntU128 .unchecked] ∧
      ∃ t, exec (.wrntU16 .unchecked) (start 1000 4) = .next t ∧ (t.status == 0x01) = true :=
  ⟨by decide, exists_of_ends (by decide +kernel)⟩

theorem witness_CheckedShortBufferTakesFaultArm :
    Instr.modeless (.wrf10U32 .checked) = false ∧ Instr.mode (.wrf10U32 .checked) = .checked ∧ OperandsWritten (start 0 9) ∧
      indexIllegal (.wrf10U32 .checked) (start 0 9) = false ∧
      (start 0 9).blen < requiredLength (.wrf10U32 .checked) (valueOf (.wrf10U32 .checked) (start 0 9)) :=
  ⟨by decide, by decide, operandsWritten_of_start _ _, by decide, by decide +kernel⟩

theorem witness_UncheckedShortBufferRefused :
    Instr.modeless (.wrpU8 .unchecked) = false ∧ Instr.mode (.wrpU8 .unchecked) = .unchecked ∧ OperandsWritten (start 0 0) ∧
      indexIllegal (.wrpU8 .unchecked) (start 0 0) = false ∧
      (start 0 0).blen < requiredLength (.wrpU8 .unchecked) (valueOf (.wrpU8 .unchecked) (start 0 0)) :=
  ⟨by decide, by decide, operandsWritten_of_start _ _, by decide, by decide +kernel⟩

theorem witness_UncheckedEqualsCheckedWithCapacity :
    Instr.modeless (.wrwU128 .checked) = false ∧
      requiredLength (.wrwU128 .checked) (valueOf (.wrwU128 .checked) (start 7 1)) ≤ (start 7 1).blen :=
  ⟨by decide, by decide +kernel⟩

theorem witness_UnwrittenOperandRefused :
    (Instr.modeless (.wrpU8 .checked) = false ∧ ¬ OperandsWritten State.reset) ∧
      (Instr.modeless (.dcountU8 .checked) = true ∧ Instr.mode (.dcountU8 .checked) = .checked ∧
        State.reset.valWritten = false) ∧
      (Instr.modeless (.dcountU8 .checked) = true ∧ (start 0 0).valWritten = true) := by
  refine ⟨⟨by decide, fun h => ?_⟩, by decide, by decide⟩
  exact absurd h.1 (by decide)

theorem witness_CommandsKeepEverythingElse :
    (∃ t, exec (.lutrdU8 .checked) (start 42 4) = .next t ∧ (t.rlen == 2) = true) ∧
      (∃ t, exec (.lutrdU8 .checked) (start 42 1) = .next t ∧ (t.rlen == 0) = true) ∧
      (∃ t, exec (.dcountU8 .checked) (start 42 1) = .next t ∧ (t.rlen == 2) = true) :=
  ⟨exists_of_ends (by decide +kernel), exists_of_ends (by decide +kernel), exists_of_ends (by decide +kernel)⟩

theorem witness_AccessesStayInTheResult :
    ∃ t, exec (.wrntU8 .checked) (start 255 3) = .next t ∧
      (t.trace.contains (.write .scr 37 0x32) && t.trace.contains (.write .buf 2 0x35)) = true :=
  exists_of_ends (by decide +kernel)

theorem witness_ReadsFollowOwnWrites :
    (∃ t, exec (.wrwU64 .checked) (start 4294967296 10) = .next t ∧
      (t.trace == t.trace.take 1 ++ .read .buf 0 :: t.trace.drop 2) = true) ∧
      (∃ t, exec (.wrntU8 .checked) (start 7 1) = .next t ∧
        (t.trace == t.trace.take 1 ++ .read .scr 39 :: t.trace.drop 2) = true) :=
  ⟨exists_of_ends (by decide +kernel), exists_of_ends (by decide +kernel)⟩

theorem witness_TraceExplainsBuffer :
    ∃ t, exec (.wrpU8 .checked) (start 99 2) = .next t ∧ (t.trace.length == 2) = true :=
  exists_of_ends (by decide +kernel)

theorem witness_OutcomeDependsOnOperandsOnly :
    (start 5 4).val = { start 5 4 with status := 0x05, buf := [] }.val ∧
      (start 5 4).blen = { start 5 4 with status := 0x05, buf := [] }.blen ∧
      (start 5 4).valWritten = { start 5 4 with status := 0x05, buf := [] }.valWritten ∧
      (start 5 4).blenWritten = { start 5 4 with status := 0x05, buf := [] }.blenWritten := by decide

theorem witness_WritersOfAWidthAgree :
    Instr.wrmU32 .checked ∈ writersAt .w32 .checked ∧ Instr.wrpU32 .unchecked ∈ writersAt .w32 .unchecked ∧
      OperandsWritten (start 1234567 10) ∧ Memory.wf (start 1234567 10).buf = true ∧
      digits (valueOf (.wrmU32 .checked) (start 1234567 10)) ≤ (start 1234567 10).blen :=
  ⟨by decide, by decide, operandsWritten_of_start _ _, by decide +kernel, by decide +kernel⟩

theorem witness_ReissueLeavesSameResult :
    Memory.wf (start 42 4).buf = true ∧ ∃ t, exec (.wrpU8 .checked) (start 42 4) = .next t ∧ (t.rlen == 2) = true :=
  ⟨by decide, exists_of_ends (by decide +kernel)⟩

theorem witness_NoLeadingZero :
    Instr.wrwU64 .checked ∈ writersAt .w64 .checked ∧
      ∃ t, exec (.wrwU64 .checked) (start 0 1) = .next t ∧ (t.status == 0x01 && memRead t.buf 0 == some 0x30) = true :=
  ⟨by decide, exists_of_ends (by decide +kernel)⟩

/-- `start` with a local value and a cursor. -/
def working (v cur length : Nat) : State :=
  (start 0 length).withTr { Transients.atReset with v := BitVec.ofNat 128 v, cur := cur }

theorem witness_DivisionLoopMakesOneStorePerDigit :
    (digits (working (2 ^ 128 - 1) 39 0).tr.v.toNat ≤ (working (2 ^ 128 - 1) 39 0).tr.cur ∧
      (working (2 ^ 128 - 1) 39 0).tr.cur ≤ spaceSize .scr (working (2 ^ 128 - 1) 39 0)) ∧
      (digits (working 0 1 1).tr.v.toNat ≤ (working 0 1 1).tr.cur ∧
        (working 0 1 1).tr.cur ≤ spaceSize .buf (working 0 1 1)) := by decide +kernel

theorem witness_SplitLoopPartitionsValue :
    (working (2 ^ 128 - 1) 0 0).tr.m = 0 ∧ (working (2 ^ 64 - 1) 0 0).tr.v.toNat < 2 ^ 64 := by decide +kernel

theorem witness_StitchKeepsBoundaryByte :
    3 < 4 ∧ 1 ≤ (working 0 1 10).tr.cur ∧ (working 0 1 10).tr.cur + 9 ≤ (working 0 1 10).blen ∧
      (chunkAt (working 0 1 10) 3).toNat < 10 ^ 9 ∧
      memRead (working 0 1 10).buf ((working 0 1 10).tr.cur - 1) = some 0xAA := by decide +kernel

theorem witness_DcountWithModeIsIllegal :
    Instr.dcountU8 .unchecked ∈ [Instr.dcountU8 .unchecked, .dcountU16 .unchecked, .dcountU32 .unchecked,
      .dcountU64 .unchecked, .dcountU128 .unchecked] := by decide

theorem witness_HostReadsChangeNothing :
    (∀ move ∈ [HostMove.readReg .val, .readReg .blen, .readReg .rlen, .readReg .status, .readBuf 4],
      (scripted [move]).cmd = none ∧ statusBusy (scripted [move]).status = false ∧ (scripted [move]).script = move :: []) ∧
      ((busy (.readReg .status)).cmd = none ∧ statusBusy (busy (.readReg .status)).status = true ∧
        (busy (.readReg .status)).script = .readReg .status :: []) ∧
      (start 5 4).valWritten = true ∧ (start 5 4).blenWritten = true := by decide

theorem witness_PairStoreIsTwoDigitStores : 99 < 100 ∧ 0 < 100 := by decide

end Sys2Proof.Tests
end

section
/-! PROOF. The lengths stay within LENW bits (00_scope.md R10, 10_state.md R33, R34). A command leaves BLEN and the script
alone, and the RLEN it gives is a constant or the content of the 6-bit register `n`, so it is below 2^6; the host's moves
bring in no length but those of its script. -/

namespace Sys2Proof.Machine

/-! ### The RLEN a command gives fits six bits -/

/-- Where the answer is a next state, its RLEN fits the 6-bit count register (10_state.md R34, R35). -/
def RlenFitsCount (o : Answer) : Prop := ∀ t, o = .next t → t.rlen < 2 ^ 6

theorem rlenFitsCount_next {s : State} : RlenFitsCount (.next s) ↔ s.rlen < 2 ^ 6 := by simp [RlenFitsCount]

theorem rlenFitsCount_completed (s : State) {n : Nat} (h : n < 2 ^ 6) : RlenFitsCount (.next (s.completed n)) :=
  rlenFitsCount_next.2 h

theorem rlenFitsCount_raised (s : State) (e : ErrCode) : RlenFitsCount (.next (s.raised e)) :=
  rlenFitsCount_next.2 (by simp)

theorem rlenFitsCount_andThen (o : Answer) {f : State → Answer} (h : ∀ u, RlenFitsCount (f u)) :
    RlenFitsCount (andThen o f) := by
  intro t ht
  obtain ⟨u, -, hu⟩ := andThen_eq_next.1 ht
  exact h u t hu

theorem rlenFitsCount_capacity (mode : Mode) (need : Nat) (s : State) {k : State → Answer} (h : RlenFitsCount (k s)) :
    RlenFitsCount (capacity mode need s k) := by
  rcases capacity_cases mode need s k with ⟨-, e⟩ | ⟨-, -, e⟩ | ⟨-, -, e⟩ <;> rw [e]
  · exact h
  · exact rlenFitsCount_raised s _
  · simp [RlenFitsCount]

/-- The shape every writer ends in: the capacity check, its stores, and the success arm. -/
theorem rlenFitsCount_writer (mode : Mode) (need : Nat) (s : State) (body : State → Answer) {n : Nat} (hn : n < 2 ^ 6) :
    RlenFitsCount (capacity mode need s fun s => andThen (body s) fun s => .next (s.completed n)) :=
  rlenFitsCount_capacity mode need s (rlenFitsCount_andThen _ fun u => rlenFitsCount_completed u hn)

theorem rlenFitsCount_withValue (w : Width) (s : State) {k : State → Answer} (h : ∀ u, RlenFitsCount (k u)) :
    RlenFitsCount (withValue w s k) := by
  rcases withValue_cases w s k with ⟨-, e⟩ | ⟨-, e⟩ <;> rw [e]
  · exact h _
  · simp [RlenFitsCount]

theorem rlenFitsCount_withValueAndLength (w : Width) (s : State) {k : State → Answer} (h : ∀ u, RlenFitsCount (k u)) :
    RlenFitsCount (withValueAndLength w s k) := by
  intro t ht
  obtain ⟨-, -, hk⟩ := withValueAndLength_eq_next ht
  exact h _ t hk

theorem lutrd_rlenFitsCount (mode : Mode) (s : State) : RlenFitsCount (execLutrdU8 mode s) := by
  refine rlenFitsCount_withValueAndLength _ s fun u => ?_
  split
  · exact rlenFitsCount_raised u _
  · exact rlenFitsCount_writer mode 2 u (fun s => put2 .buf 0 s.tr.v.toNat s) (by decide)

theorem dcount_rlenFitsCount (w : Width) (mode : Mode) (s : State) : RlenFitsCount (dcount w mode s) := by
  cases mode with
  | checked =>
    exact rlenFitsCount_withValue w s fun u =>
      rlenFitsCount_andThen _ fun a => rlenFitsCount_completed a a.tr.n.isLt
  | unchecked => exact rlenFitsCount_raised _ _

theorem wrnt_rlenFitsCount (w : Width) (mode : Mode) (s : State) : RlenFitsCount (wrnt w mode s) :=
  rlenFitsCount_withValueAndLength w s fun _ =>
    rlenFitsCount_andThen _ fun _ => rlenFitsCount_writer mode _ _ (copyLoop _ 0) (BitVec.isLt _)

theorem wrnx_rlenFitsCount (w : Width) (mode : Mode) (s : State) : RlenFitsCount (wrnx w mode s) :=
  rlenFitsCount_withValueAndLength w s fun _ =>
    rlenFitsCount_andThen _ fun a =>
      rlenFitsCount_capacity mode _ a (rlenFitsCount_andThen _ fun b => rlenFitsCount_completed b a.tr.n.isLt)

theorem wrp_rlenFitsCount (w : Width) (mode : Mode) (s : State) : RlenFitsCount (wrp w mode s) :=
  rlenFitsCount_withValueAndLength w s fun _ =>
    rlenFitsCount_andThen _ fun a =>
      rlenFitsCount_capacity mode _ a <|
        rlenFitsCount_andThen _ fun _ => rlenFitsCount_andThen _ fun _ => rlenFitsCount_andThen _ fun d =>
          rlenFitsCount_completed d a.tr.n.isLt

theorem wrm_rlenFitsCount (w : Width) (mode : Mode) (s : State) : RlenFitsCount (wrm w mode s) :=
  rlenFitsCount_withValueAndLength w s fun _ =>
    rlenFitsCount_writer mode _ _ (fun s => magicEmit 0 s.tr.v s) (BitVec.isLt _)

theorem wrf10_rlenFitsCount (mode : Mode) (s : State) : RlenFitsCount (execWrf10U32 mode s) :=
  rlenFitsCount_withValueAndLength .w32 s fun u =>
    rlenFitsCount_writer mode 10 u (fun s => fixed10Emit 0 (s.tr.v.setWidth 64) s) (by decide)

theorem wrw_rlenFitsCount (w : Width) (mode : Mode) (s : State) : RlenFitsCount (wrw w mode s) :=
  rlenFitsCount_withValueAndLength w s fun _ =>
    rlenFitsCount_andThen _ fun _ =>
      rlenFitsCount_capacity mode _ _ <|
        rlenFitsCount_andThen _ fun _ => rlenFitsCount_andThen _ fun c =>
          rlenFitsCount_completed c (BitVec.isLt _)

theorem exec_rlenFitsCount (i : Instr) (s : State) : RlenFitsCount (exec i s) := by
  cases i with
  | lutrdU8 mode => exact lutrd_rlenFitsCount mode s
  | dcountU8 mode | dcountU16 mode | dcountU32 mode | dcountU64 mode | dcountU128 mode =>
    exact dcount_rlenFitsCount _ mode s
  | wrntU8 mode | wrntU16 mode | wrntU32 mode | wrntU64 mode | wrntU128 mode => exact wrnt_rlenFitsCount _ mode s
  | wrnxU8 mode | wrnxU16 mode | wrnxU32 mode | wrnxU64 mode | wrnxU128 mode => exact wrnx_rlenFitsCount _ mode s
  | wrpU8 mode | wrpU16 mode | wrpU32 mode | wrpU64 mode | wrpU128 mode => exact wrp_rlenFitsCount _ mode s
  | wrmU8 mode | wrmU16 mode | wrmU32 mode => exact wrm_rlenFitsCount _ mode s
  | wrf10U32 mode => exact wrf10_rlenFitsCount mode s
  | wrwU64 mode | wrwU128 mode => exact wrw_rlenFitsCount _ mode s

theorem perform_rlenFitsCount (c : CmdWord) (s : State) : RlenFitsCount (perform c s) := by
  unfold perform
  split
  · exact exec_rlenFitsCount _ s
  · exact rlenFitsCount_raised _ _

/-! ### What a command leaves of the lengths -/

/-- All a pending word can do where it answers a next state, an illegal word included (60_exceptions.md R192). -/
theorem perform_ends {c : CmdWord} {s t : State} (h : perform c s = .next t) : Ends s t := by
  unfold perform at h
  split at h
  · exact exec_ends h
  · obtain rfl := (Host.Outcome.next.inj h).symm
    exact ⟨[], _, Body.refl _, .inr ⟨_, rfl⟩⟩

theorem Ends.blen {s t : State} (h : Ends s t) : t.blen = s.blen := by
  obtain ⟨l, u, hbody, ⟨n, rfl⟩ | ⟨e, rfl⟩⟩ := h <;> exact hbody.blen

theorem Ends.script {s t : State} (h : Ends s t) : t.script = s.script := by
  obtain ⟨l, u, hbody, ⟨n, rfl⟩ | ⟨e, rfl⟩⟩ := h <;> exact hbody.script

/-! ### What a host move does to the lengths -/

/-- A move leaves the rest of the script; it keeps, writes or resets BLEN, and keeps or resets RLEN, which has no write
move (10_state.md R30, 70_reset_and_hazards.md R210). -/
theorem hostMove_lengths {move : HostMove} {s t : State} (h : hostMove move s = .next t) :
    t.script = s.script ∧ (t.blen = s.blen ∨ move = .writeBlen t.blen ∨ t.blen = 0) ∧
      (t.rlen = s.rlen ∨ t.rlen = 0) := by
  unfold hostMove at h
  split at h
  · simp at h
  · cases move with
    | writeBlen n =>
      obtain rfl := Host.Outcome.next.inj h
      exact ⟨rfl, .inr (.inl rfl), .inl rfl⟩
    | reset =>
      obtain rfl := Host.Outcome.next.inj h
      exact ⟨rfl, .inr (.inr rfl), .inr rfl⟩
    | readReg r =>
      cases r with
      | cmd => simp at h
      | val | blen | rlen | status =>
        obtain rfl := Host.Outcome.next.inj h
        exact ⟨rfl, .inl rfl, .inl rfl⟩
    | writeVal | writeBuf | writeCmd | writeStatus | readBuf =>
      obtain rfl := Host.Outcome.next.inj h
      exact ⟨rfl, .inl rfl, .inl rfl⟩

theorem fitsLenw_of_script_cons {lenw : Nat} {s : State} {move : HostMove} {rest : List HostMove}
    (h : FitsLenw lenw s) (hs : s.script = move :: rest) :
    FitsLenw lenw { s with script := rest } ∧ ∀ n, move = .writeBlen n → n < 2 ^ lenw := by
  obtain ⟨hblen, hrlen, hscript⟩ := h
  rw [hs] at hscript
  refine ⟨⟨hblen, hrlen, fun n hn => hscript n (List.mem_cons_of_mem _ hn)⟩, ?_⟩
  rintro n rfl
  exact hscript n List.mem_cons_self

theorem hostMove_fitsLenw {lenw : Nat} {move : HostMove} {s t : State} (hs : FitsLenw lenw s)
    (hmove : ∀ n, move = .writeBlen n → n < 2 ^ lenw) (h : hostMove move s = .next t) : FitsLenw lenw t := by
  obtain ⟨hblen, hrlen, hscript⟩ := hs
  obtain ⟨hsc, hb, hr⟩ := hostMove_lengths h
  have hpos : 0 < 2 ^ lenw := Nat.two_pow_pos lenw
  refine ⟨?_, ?_, by rwa [hsc]⟩
  · rcases hb with hb | hb | hb
    · rwa [hb]
    · exact hmove _ hb
    · rwa [hb]
  · rcases hr with hr | hr <;> rwa [hr]

theorem hostTurn_fitsLenw {lenw : Nat} {s t : State} (hs : FitsLenw lenw s) (h : hostTurn s = .next t) :
    FitsLenw lenw t := by
  unfold hostTurn at h
  split at h
  · obtain rfl := Host.Outcome.next.inj h
    exact hs
  · next move rest hcons =>
    obtain ⟨hrest, hmove⟩ := fitsLenw_of_script_cons hs hcons
    exact hostMove_fitsLenw hrest hmove h

theorem perform_fitsLenw {lenw : Nat} (hlenw : 6 ≤ lenw) {c : CmdWord} {s t : State} (hs : FitsLenw lenw s)
    (h : perform c s = .next t) : FitsLenw lenw t := by
  obtain ⟨hblen, -, hscript⟩ := hs
  have hends := perform_ends h
  have hrlen : t.rlen < 2 ^ 6 := perform_rlenFitsCount c s t h
  refine ⟨?_, lt_of_lt_of_le hrlen (Nat.pow_le_pow_right (by omega) hlenw), ?_⟩
  · rwa [hends.blen]
  · rwa [hends.script]

/-- Settles O5: the unit's turn gives an RLEN of six bits and keeps the other lengths, and the host's turn takes lengths
from its script only. -/
theorem stepKeepsLengthsInLenw : Obligations.StepKeepsLengthsInLenw := by
  intro lenw s t hlenw hs h
  unfold step at h
  split at h
  · exact perform_fitsLenw hlenw hs h
  · exact hostTurn_fitsLenw hs h

end Sys2Proof.Machine
end

section
/-! SUPPORT. The copy of WRNT and the phases of WRP: where its premises hold, each answers a next state with exactly these
accesses. -/

namespace Sys2Proof.Machine

/-! ### The copy of WRNT (42_naive_divmod_writer.md R124) -/

/-- The accesses that copy SCR:cur+j to BUF:j, upward from j = i. -/
def copyAccesses (cur : Nat) (text : Nat → Byte) (i count : Nat) : List Access :=
  (List.range' i count).flatMap fun j => [.read .scr (cur + j), .write .buf j (text j)]

theorem copyAccesses_succ (cur : Nat) (text : Nat → Byte) (i count : Nat) :
    copyAccesses cur text i (count + 1) =
      [.read .scr (cur + i)] ++ ([.write .buf i (text i)] ++ copyAccesses cur text (i + 1) count) := by
  simp [copyAccesses, List.range'_succ]

theorem copyLoop_ok {text : Nat → Byte} : ∀ {count i : Nat} {s : State},
    (∀ j, i ≤ j → j < i + count → memRead s.scr (s.tr.cur + j) = some (text j)) →
    s.tr.cur + i + count ≤ Config.scrLen → i + count ≤ s.blen →
    ∃ t, copyLoop count i s = .next t ∧ Body (copyAccesses s.tr.cur text i count) s t := by
  intro count
  induction count with
  | zero => intro i s _ _ _; exact ⟨s, rfl, Body.refl s⟩
  | succ k ih =>
    intro i s hscr hcur hlen
    unfold copyLoop
    rw [load_ok (sp := .scr) (by simp only [spaceSize]; omega) (hscr i (by omega) (by omega)),
      store_ok (by simp only [spaceSize, logged_blen]; omega), andThen_next]
    generalize hu : State.stored _ _ _ _ = u
    have hub : Body ([.read .scr (s.tr.cur + i)] ++ [.write .buf i (text i)]) s u := by
      subst hu
      exact (body_logged_read ..).trans (body_stored ..)
    have hutr : u.tr = s.tr := by subst hu; rfl
    have huscr : u.scr = s.scr := by subst hu; rfl
    obtain ⟨t, ht, hb⟩ := ih (i := i + 1) (s := u)
      (fun j hj hj' => by rw [hutr, huscr]; exact hscr j (by omega) (by omega))
      (by rw [hutr]; omega) (by rw [hub.blen]; omega)
    refine ⟨t, ht, ?_⟩
    rw [hutr] at hb
    rw [copyAccesses_succ, ← List.append_assoc]
    exact hub.trans hb

/-! ### The pairs of WRP (43_paired_digit_writer.md R137 to R140) -/

/-- The stores of the `k` low pairs of `x` from offset cur-1 down, each with its tens character first. -/
def pairsDown (cur x k : Nat) : List Access :=
  (List.range k).flatMap fun j =>
    [.write .buf (cur - 2 - 2 * j) (asciiDigit (x / 10 ^ (2 * j + 1) % 10)),
      .write .buf (cur - 1 - 2 * j) (asciiDigit (x / 10 ^ (2 * j) % 10))]

theorem pairsDown_one {cur : Nat} (h : 2 ≤ cur) (x : Nat) :
    pairsDown cur x 1 =
      [.write .buf (cur - 2) (asciiDigit (x % 100 / 10)), .write .buf (cur - 2 + 1) (asciiDigit (x % 100 % 10))] := by
  have htens : x / 10 % 10 = x % 100 / 10 := by omega
  have hunits : x % 10 = x % 100 % 10 := by omega
  have hoff : cur - 1 = cur - 2 + 1 := by omega
  simp only [pairsDown, List.range_one, List.flatMap_cons, List.flatMap_nil, Nat.mul_zero, Nat.sub_zero, Nat.zero_add,
    Nat.pow_zero, Nat.pow_one, Nat.div_one, List.append_nil]
  rw [htens, hunits, hoff]

theorem pairsDown_add (cur x a b : Nat) :
    pairsDown cur x (a + b) = pairsDown cur x a ++ pairsDown (cur - 2 * a) (x / 100 ^ a) b := by
  unfold pairsDown
  rw [List.range_add, List.flatMap_append, List.flatMap_map]
  congr 1
  refine List.flatMap_congr fun j _ => ?_
  have hdiv : ∀ e, x / 100 ^ a / 10 ^ e = x / 10 ^ (2 * a + e) := fun e => by
    rw [Nat.div_div_eq_div_mul, Nat.pow_add, Nat.pow_mul]
  rw [hdiv, hdiv, show 2 * (a + j) + 1 = 2 * a + (2 * j + 1) by omega, show 2 * (a + j) = 2 * a + 2 * j by omega,
    show cur - 2 - (2 * a + 2 * j) = cur - 2 * a - 2 - 2 * j by omega,
    show cur - 1 - (2 * a + 2 * j) = cur - 2 * a - 1 - 2 * j by omega]

/-- From the end of a text down, the pairs are those of the text. -/
theorem pairsDown_digits {v k : Nat} (h : 2 * k ≤ digits v) :
    pairsDown (digits v) v k = (List.range k).flatMap fun j =>
      [.write .buf (digits v - 2 - 2 * j) (decByte v (digits v - 2 - 2 * j)),
        .write .buf (digits v - 1 - 2 * j) (decByte v (digits v - 1 - 2 * j))] := by
  refine List.flatMap_congr fun j hj => ?_
  have hj := List.mem_range.1 hj
  simp only [decByte, decDigit, asciiDigit]
  rw [show digits v - 1 - (digits v - 2 - 2 * j) = 2 * j + 1 by omega,
    show digits v - 1 - (digits v - 1 - 2 * j) = 2 * j by omega]

theorem lt_digits_of_pow_le {v k : Nat} (h : 10 ^ k ≤ v) : k < digits v :=
  (Nat.pow_lt_pow_iff_right (by omega)).1 (lt_of_le_of_lt h (lt_pow_digits v))

/-- What the phases of WRP have in common: `k` pairs of the value are written below the cursor, which now stands at the end of
the text that is left. -/
structure PairsWritten (k : Nat) (s t : State) : Prop where
  body : Body (pairsDown s.tr.cur s.tr.v.toNat k) s t
  v : t.tr.v.toNat = s.tr.v.toNat / 100 ^ k
  cur : t.tr.cur = s.tr.cur - 2 * k
  left : t.tr.cur = digits t.tr.v.toNat

theorem PairsWritten.trans {a b : Nat} {s t u : State} (h : PairsWritten a s t) (h' : PairsWritten b t u) :
    PairsWritten (a + b) s u where
  body := by
    have hb := h'.body
    rw [h.v, h.cur] at hb
    rw [pairsDown_add]
    exact h.body.trans hb
  v := by rw [h'.v, h.v, Nat.div_div_eq_div_mul, ← Nat.pow_add]
  cur := by rw [h'.cur, h.cur]; omega
  left := h'.left

theorem PairsWritten.refl {s : State} (h : s.tr.cur = digits s.tr.v.toNat) : PairsWritten 0 s s :=
  ⟨Body.refl s, by simp, by simp, h⟩

/-- The cursor of the text that is left: each pair takes two digits. -/
theorem digits_div_pairs {v k : Nat} (h : 100 ^ k ≤ v) : digits (v / 100 ^ k) = digits v - 2 * k := by
  rw [show 100 ^ k = 10 ^ (2 * k) by rw [Nat.pow_mul]] at h ⊢
  exact digits_div_pow (lt_digits_of_pow_le h)

theorem toNat_remainder {v : Value} {d : Nat} (hd : 0 < d) (h : d ≤ 10000) :
    ((v % BitVec.ofNat 128 d).setWidth 14).toNat = v.toNat % d := by
  have hlt : v.toNat % d < d := Nat.mod_lt _ hd
  rw [BitVec.toNat_setWidth, BitVec.toNat_umod, BitVec.toNat_ofNat, Nat.mod_eq_of_lt (a := d) (by omega)]
  exact Nat.mod_eq_of_lt (by omega)

theorem toNat_quotient {v : Value} {d : Nat} (h : d ≤ 10000) : (v / BitVec.ofNat 128 d).toNat = v.toNat / d := by
  rw [BitVec.toNat_udiv, BitVec.toNat_ofNat, Nat.mod_eq_of_lt (a := d) (by omega)]

/-- The table offsets of a four-digit remainder are even and name its two pairs (R138). -/
theorem setPairs_indices {s : State} (h : s.tr.r.toNat < 10000) :
    (setPairs s).tr.pairLo.toNat / 2 = s.tr.r.toNat % 100 ∧ (setPairs s).tr.pairHi.toNat / 2 = s.tr.r.toNat / 100 := by
  have key : ∀ q : BitVec 14, q.toNat < 100 → ((2 * q).setWidth 8).toNat / 2 = q.toNat := fun q hq => by
    rw [BitVec.toNat_setWidth, BitVec.toNat_mul]
    change 2 * q.toNat % 2 ^ 14 % 2 ^ 8 / 2 = q.toNat
    omega
  have hlo : (s.tr.r % 100).toNat = s.tr.r.toNat % 100 := by rw [BitVec.toNat_umod]; rfl
  have hhi : (s.tr.r / 100).toNat = s.tr.r.toNat / 100 := by rw [BitVec.toNat_udiv]; rfl
  exact ⟨by rw [← hlo]; exact key _ (by omega), by rw [← hhi]; exact key _ (by omega)⟩

/-- A step of the cursor and the store of the low pair of `x` behind it. -/
theorem storePair_ok {s : State} (x : Nat) (hcur : 2 ≤ s.tr.cur) (hlen : s.tr.cur ≤ s.blen) :
    ∃ a u, decCur 2 s = .next a ∧ a.tr = { s.tr with cur := s.tr.cur - 2 } ∧
      put2 .buf (s.tr.cur - 2) (x % 100) a = .next u ∧ u.tr = a.tr ∧ Body (pairsDown s.tr.cur x 1) s u := by
  refine ⟨_, _, decCur_ok hcur, rfl, put2_ok (by omega) (by simp only [spaceSize, withTr_blen]; omega), rfl, ?_⟩
  rw [pairsDown_one hcur]
  exact ((body_stored ..).trans (body_stored ..)).after_withTr

theorem pairedPhase1_ok : ∀ {passes : Nat} {s : State}, s.tr.v.toNat < 10000 ^ (passes + 1) →
    s.tr.cur = digits s.tr.v.toNat → s.tr.cur ≤ s.blen →
    ∃ k t, pairedPhase1 (passes + 1) s = .next t ∧ PairsWritten k s t ∧ t.tr.v.toNat < 10000 := by
  intro passes
  induction passes with
  | zero =>
    intro s hv hcur _
    exact ⟨0, s, if_neg (by omega), PairsWritten.refl hcur, by omega⟩
  | succ p ih =>
    intro s hv hcur hlen
    by_cases hbig : 10000 ≤ s.tr.v.toNat
    · have hdig := digits_div_pairs (v := s.tr.v.toNat) (k := 2) (by omega)
      have h5 := lt_digits_of_pow_le (v := s.tr.v.toNat) (k := 4) (by omega)
      have hquot : (s.tr.v / 10000).toNat = s.tr.v.toNat / 10000 := toNat_quotient (d := 10000) (by omega)
      unfold pairedPhase1
      rw [if_pos hbig]
      dsimp only
      generalize ha : State.withTr s _ = a
      have har : a.tr.r.toNat = s.tr.v.toNat % 10000 := by
        subst ha; exact toNat_remainder (d := 10000) (by omega) (by omega)
      have hav : (setPairs a).tr.v = s.tr.v / 10000 := by subst ha; rfl
      have hbody : Body [] s (setPairs a) := by subst ha; exact (body_withTr ..).trans (body_withTr ..)
      have hacur : (setPairs a).tr.cur = s.tr.cur := by subst ha; rfl
      obtain ⟨hlo, hhi⟩ := setPairs_indices (s := a) (by omega)
      rw [har, Nat.mod_mod_of_dvd _ (by norm_num)] at hlo
      rw [har, show s.tr.v.toNat % 10000 / 100 = s.tr.v.toNat / 100 % 100 by omega] at hhi
      obtain ⟨b, c, hb, hbtr, hc, hctr, hcbody⟩ :=
        storePair_ok (s := setPairs a) s.tr.v.toNat (by omega) (by rw [hbody.blen]; omega)
      have hccur : c.tr.cur = s.tr.cur - 2 := by rw [hctr, hbtr, hacur]
      obtain ⟨d, u, hd, hdtr, hu, hutr, hubody⟩ :=
        storePair_ok (s := c) (s.tr.v.toNat / 100) (by omega) (by rw [hcbody.blen, hbody.blen]; omega)
      have hcpair : c.tr.pairHi = (setPairs a).tr.pairHi := by rw [hctr, hbtr]
      rw [hb, andThen_next, hbtr]
      dsimp only
      rw [hlo, hc, andThen_next, hd, andThen_next, hdtr]
      dsimp only
      rw [hcpair, hhi, hu, andThen_next]
      have huv : u.tr.v.toNat = s.tr.v.toNat / 100 ^ 2 := by rw [hutr, hdtr, hctr, hbtr]; exact hav ▸ hquot
      have hucur : u.tr.cur = s.tr.cur - 2 * 2 := by rw [hutr, hdtr]; dsimp only; omega
      have hw : PairsWritten 2 s u := {
        body := by
          rw [hacur] at hcbody
          rw [hccur] at hubody
          rw [pairsDown_add _ _ 1 1, Nat.pow_one]
          exact hbody.trans (hcbody.trans hubody)
        v := huv
        cur := hucur
        left := by rw [huv, hdig, hucur, hcur] }
      obtain ⟨k, t, ht, hk, hlt⟩ := ih (s := u) (by rw [huv]; omega) hw.left (by rw [hw.body.blen, hucur]; omega)
      exact ⟨_, t, ht, hw.trans hk, hlt⟩
    · exact ⟨0, s, if_neg hbig, PairsWritten.refl hcur, by omega⟩

theorem pairedPhase2_ok : ∀ {passes : Nat} {s : State}, s.tr.v.toNat < 100 ^ (passes + 1) →
    s.tr.cur = digits s.tr.v.toNat → s.tr.cur ≤ s.blen →
    ∃ k t, pairedPhase2 (passes + 1) s = .next t ∧ PairsWritten k s t ∧ t.tr.v.toNat < 100 := by
  intro passes
  induction passes with
  | zero =>
    intro s hv hcur _
    exact ⟨0, s, if_neg (by omega), PairsWritten.refl hcur, by omega⟩
  | succ p ih =>
    intro s hv hcur hlen
    by_cases hbig : 100 ≤ s.tr.v.toNat
    · have hdig := digits_div_pairs (v := s.tr.v.toNat) (k := 1) (by omega)
      have h3 := lt_digits_of_pow_le (v := s.tr.v.toNat) (k := 2) (by omega)
      have hquot : (s.tr.v / 100).toNat = s.tr.v.toNat / 100 := toNat_quotient (d := 100) (by omega)
      unfold pairedPhase2
      rw [if_pos hbig]
      dsimp only
      generalize ha : State.withTr s _ = a
      have har : a.tr.r.toNat = s.tr.v.toNat % 100 := by
        subst ha; exact toNat_remainder (d := 100) (by omega) (by omega)
      have hav : a.tr.v = s.tr.v / 100 := by subst ha; rfl
      have hbody : Body [] s a := by subst ha; exact body_withTr ..
      have hacur : a.tr.cur = s.tr.cur := by subst ha; rfl
      obtain ⟨b, u, hb, hbtr, hu, hutr, hubody⟩ :=
        storePair_ok (s := a) s.tr.v.toNat (by omega) (by rw [hbody.blen]; omega)
      rw [hb, andThen_next, hbtr]
      dsimp only
      rw [har, hu, andThen_next]
      have huv : u.tr.v.toNat = s.tr.v.toNat / 100 ^ 1 := by rw [hutr, hbtr]; exact hav ▸ hquot
      have hucur : u.tr.cur = s.tr.cur - 2 * 1 := by rw [hutr, hbtr]; dsimp only; omega
      have hw : PairsWritten 1 s u := {
        body := by rw [hacur] at hubody; exact hbody.trans hubody
        v := huv
        cur := hucur
        left := by rw [huv, hdig, hucur, hcur] }
      obtain ⟨k, t, ht, hk, hlt⟩ := ih (s := u) (by rw [huv]; omega) hw.left (by rw [hw.body.blen, hucur]; omega)
      exact ⟨_, t, ht, hw.trans hk, hlt⟩
    · exact ⟨0, s, if_neg hbig, PairsWritten.refl hcur, by omega⟩

/-- After `k` pairs of the text of `x`, phase 3 stores what is left of it: the accesses of WRP end as in R140. -/
theorem pairedPhase3_ok {k x : Nat} {s u : State} (hx : s.tr.v.toNat = x) (hcur : s.tr.cur = digits x)
    (hlen : s.tr.cur ≤ s.blen) (h : PairsWritten k s u) (hlt : u.tr.v.toNat < 100) :
    ∃ t, pairedPhase3 u = .next t ∧ Body (pairedStores (digits x) (decByte x)) s t := by
  have hbody := h.body
  rw [hx, hcur] at hbody
  have hv := h.v
  rw [hx] at hv
  have hucur := h.cur
  rw [hcur] at hucur
  have hdpos := digits_pos u.tr.v.toNat
  have hdleft := h.left
  unfold pairedPhase3
  split
  · next hone =>
    have hd := digits_of_lt_ten hone
    have hlast : decByte x 0 = asciiDigit u.tr.v.toNat := by
      rw [decByte, decDigit, asciiDigit, hv, Nat.sub_zero, show digits x - 1 = 2 * k by omega, Nat.pow_mul]
      rw [hv] at hone
      rw [Nat.mod_eq_of_lt hone]
    rw [decCur_ok (by omega), andThen_next]
    simp only [withTr_tr]
    rw [put1_ok hone (by simp only [spaceSize, withTr_blen, hbody.blen]; omega)]
    refine ⟨_, rfl, ?_⟩
    rw [pairedStores, show digits x / 2 = k by omega, if_pos (by omega), ← pairsDown_digits (by omega), hlast,
      show (0 : Nat) = u.tr.cur - 1 by omega]
    exact hbody.trans (body_stored ..).after_withTr
  · next htwo =>
    have hd : digits u.tr.v.toNat = 2 := digits_eq_of_bounds (n := 1) (by omega) (by omega)
    obtain ⟨b, c, hb, hbtr, hc, -, hcbody⟩ := storePair_ok (s := u) u.tr.v.toNat (by omega) (by rw [hbody.blen]; omega)
    rw [hb, andThen_next, hbtr]
    dsimp only
    rw [Nat.mod_eq_of_lt hlt] at hc
    refine ⟨c, hc, ?_⟩
    rw [pairedStores, show digits x / 2 = k + 1 by omega, if_neg (by omega), ← pairsDown_digits (by omega),
      List.append_nil, pairsDown_add, ← hucur, ← hv]
    exact hbody.trans hcbody

end Sys2Proof.Machine
end

section
/-! SUPPORT. The split and the stitching of WRW (45_wide_splitter.md R176 to R180): the loops answer a next state with the
chunks of the value, and with exactly the accesses of R180. -/

namespace Sys2Proof.Machine

/-! ### The chunks of a value -/

theorem chunksWithin_eq : ∀ {fuel fuel' v : Nat}, v ≤ fuel → v ≤ fuel' →
    chunksWithin fuel v = chunksWithin fuel' v := by
  intro fuel
  induction fuel with
  | zero =>
    intro fuel' v h _
    obtain rfl : v = 0 := by omega
    cases fuel' <;> simp [chunksWithin]
  | succ k ih =>
    intro fuel' v h h'
    cases fuel' with
    | zero =>
      obtain rfl : v = 0 := by omega
      simp [chunksWithin]
    | succ k' =>
      simp only [chunksWithin]
      split
      · rfl
      · rw [ih (fuel' := k') (v := v / 10 ^ 9) (by omega) (by omega)]

theorem lowerChunks_of_lt {v : Nat} (h : v < 2 ^ 32) : lowerChunks v = 0 := by
  unfold lowerChunks
  cases v with
  | zero => rfl
  | succ k => rw [chunksWithin, if_pos h]

theorem lowerChunks_of_le {v : Nat} (h : 2 ^ 32 ≤ v) : lowerChunks v = lowerChunks (v / 10 ^ 9) + 1 := by
  obtain ⟨k, rfl⟩ : ∃ k, v = k + 1 := ⟨v - 1, by omega⟩
  unfold lowerChunks
  rw [chunksWithin, if_neg (by omega), chunksWithin_eq (by omega) (le_refl _)]

theorem topChunk_of_lt {v : Nat} (h : v < 2 ^ 32) : topChunk v = v := by
  rw [topChunk, lowerChunks_of_lt h, Nat.mul_zero, Nat.pow_zero, Nat.div_one]

theorem topChunk_of_le {v : Nat} (h : 2 ^ 32 ≤ v) : topChunk v = topChunk (v / 10 ^ 9) := by
  rw [topChunk, topChunk, lowerChunks_of_le h, Nat.div_div_eq_div_mul, ← Nat.pow_add]
  congr 2
  omega

/-- The top chunk fits the 32-bit writer, and the digits of a value are those of its top chunk and nine for each lower one. -/
theorem topChunk_lt_and_digits (v : Nat) :
    topChunk v < 2 ^ 32 ∧ digits v = digits (topChunk v) + 9 * lowerChunks v := by
  induction v using Nat.strongRecOn with
  | _ v ih =>
    by_cases h : v < 2 ^ 32
    · rw [topChunk_of_lt h, lowerChunks_of_lt h]
      exact ⟨h, rfl⟩
    · have hle : 2 ^ 32 ≤ v := by omega
      obtain ⟨hlt, hdig⟩ := ih (v / 10 ^ 9) (by omega)
      have h9 : 9 < digits v := lt_digits_of_pow_le (by omega)
      have hdiv := digits_div_pow h9
      rw [topChunk_of_le hle, lowerChunks_of_le hle]
      exact ⟨hlt, by omega⟩

/-- The number of lower chunks by the size of the value (R177). -/
theorem lowerChunks_le {k : Nat} : ∀ {v : Nat}, v < 2 ^ 32 * 10 ^ (9 * k) → lowerChunks v ≤ k := by
  induction k with
  | zero => intro v h; rw [lowerChunks_of_lt (by simpa using h)]
  | succ k ih =>
    intro v h
    by_cases hlt : v < 2 ^ 32
    · rw [lowerChunks_of_lt hlt]; omega
    · rw [lowerChunks_of_le (by omega)]
      have := ih (v := v / 10 ^ 9) (by rw [Nat.mul_add, Nat.pow_add] at h; omega)
      omega

/-! ### The split loop -/

theorem chunkAt_withTr (s : State) (t : Transients) (i : Nat) :
    chunkAt (s.withTr t) i = if h : i < 4 then t.chunk[i] else 0 := rfl

/-- One pass: the low nine digits go to the next chunk (R176). -/
theorem splitStep_ok {s : State} (hm : s.tr.m.toNat < 4) :
    ∃ t, splitStep s = .next t ∧ t.tr.v.toNat = s.tr.v.toNat / 10 ^ 9 ∧ t.tr.m.toNat = s.tr.m.toNat + 1 ∧
      (chunkAt t s.tr.m.toNat).toNat = s.tr.v.toNat % 10 ^ 9 ∧ ∀ i, i ≠ s.tr.m.toNat → chunkAt t i = chunkAt s i := by
  unfold splitStep
  rw [dif_pos hm]
  refine ⟨_, rfl, ?_, ?_, ?_, fun i hi => ?_⟩
  · have := s.tr.v.isLt
    simp only [withTr_tr, BitVec.toNat_ofNat, chunkRadix]
    omega
  · rw [withTr_tr, BitVec.toNat_add]
    change (s.tr.m.toNat + 1) % 8 = _
    omega
  · rw [chunkAt_withTr, dif_pos hm]
    simp only [Vector.getElem_set_self, BitVec.toNat_ofNat, chunkRadix]
    omega
  · rw [chunkAt_withTr, chunkAt]
    split
    · simp only
      rw [Vector.getElem_set_ne _ _ (Ne.symm hi)]
    · rfl

/-- The value of `s` is split: `v` is its top chunk, and its lower chunks stand behind those already split off (R176). -/
structure SplitOff (s t : State) : Prop where
  v : t.tr.v.toNat = topChunk s.tr.v.toNat
  m : t.tr.m.toNat = s.tr.m.toNat + lowerChunks s.tr.v.toNat
  earlier : ∀ i, i < s.tr.m.toNat → chunkAt t i = chunkAt s i
  chunks : ∀ i, i < lowerChunks s.tr.v.toNat →
    (chunkAt t (s.tr.m.toNat + i)).toNat = s.tr.v.toNat / 10 ^ (9 * i) % 10 ^ 9

theorem SplitOff.refl {s : State} (h : s.tr.v.toNat < 2 ^ 32) : SplitOff s s where
  v := (topChunk_of_lt h).symm
  m := by rw [lowerChunks_of_lt h, Nat.add_zero]
  earlier _ _ := rfl
  chunks i hi := by rw [lowerChunks_of_lt h] at hi; omega

theorem splitLoop_of_lt {passes : Nat} {s : State} (h : s.tr.v.toNat < 2 ^ 32) : splitLoop (passes + 1) s = .next s :=
  if_neg (by rw [splitLimit]; omega)

/-- The loop splits the value within its bound on the passes (R176, R177). -/
theorem splitLoop_ok : ∀ {passes : Nat} {s : State}, s.tr.v.toNat < 2 ^ 32 * 10 ^ (9 * passes) →
    s.tr.m.toNat + passes ≤ 4 → ∃ t, splitLoop (passes + 1) s = .next t ∧ SplitOff s t := by
  intro passes
  induction passes with
  | zero =>
    intro s hv _
    have hlt : s.tr.v.toNat < 2 ^ 32 := by simpa using hv
    exact ⟨s, splitLoop_of_lt hlt, SplitOff.refl hlt⟩
  | succ p ih =>
    intro s hv hm
    rcases Nat.lt_or_ge s.tr.v.toNat (2 ^ 32) with hlt | hle
    · exact ⟨s, splitLoop_of_lt hlt, SplitOff.refl hlt⟩
    · obtain ⟨u, hu, huv, hum, hunew, huold⟩ := splitStep_ok (s := s) (by omega)
      obtain ⟨t, ht, hsplit⟩ := ih (s := u)
        (by rw [huv]; rw [Nat.mul_add, Nat.pow_add] at hv; omega) (by omega)
      rw [splitLoop, if_pos (by rw [splitLimit]; exact hle), hu, andThen_next]
      refine ⟨t, ht, ?_, ?_, fun i hi => ?_, fun i hi => ?_⟩
      · rw [hsplit.v, huv, topChunk_of_le hle]
      · rw [hsplit.m, hum, huv, lowerChunks_of_le hle]; omega
      · rw [hsplit.earlier i (by omega), huold i (by omega)]
      · cases i with
        | zero => rw [hsplit.earlier _ (by omega), Nat.add_zero, hunew, Nat.mul_zero, Nat.pow_zero, Nat.div_one]
        | succ j =>
          rw [lowerChunks_of_le hle, ← huv] at hi
          rw [show s.tr.m.toNat + (j + 1) = u.tr.m.toNat + j by omega, hsplit.chunks j (by omega), huv,
            Nat.div_div_eq_div_mul, ← Nat.pow_add, show 9 + 9 * j = 9 * (j + 1) by omega]

/-! ### The stitching loop -/

/-- The accesses that write the chunk `k` places below the top chunk of `d` characters (R180). -/
def chunkAccesses (d : Nat) (text : Nat → Byte) (k : Nat) : List Access :=
  .read .buf (d + 9 * k - 1) :: .write .buf (d + 9 * k - 1) 0x30 ::
    ((List.range 9).map fun j => .write .buf (d + 9 * k - 1 + 1 + j) (text (d + 9 * k - 1 + 1 + j))) ++
      [.write .buf (d + 9 * k - 1) (text (d + 9 * k - 1))]

theorem wideAccesses_eq (d m : Nat) (text : Nat → Byte) :
    wideAccesses d m text =
      ((List.range d).map fun j => .write .buf j (text j)) ++ (List.range' 0 m).flatMap (chunkAccesses d text) := by
  rw [← List.range_eq_range']
  rfl

/-- Stitching one chunk reads the boundary byte, writes ten characters over it and puts it back (R180). -/
theorem stitch_ok {s : State} {i : Nat} {b : Byte} (hcur : 1 ≤ s.tr.cur) (hlen : s.tr.cur + 9 ≤ s.blen)
    (hb : memRead s.buf (s.tr.cur - 1) = some b) :
    ∃ t, stitch i s = .next t ∧
      Body (.read .buf (s.tr.cur - 1) :: textUp .buf (s.tr.cur - 1) (chunkAt s i).toNat 10 ++
        [.write .buf (s.tr.cur - 1) b]) s t ∧
      t.tr.cur = s.tr.cur + 9 ∧ t.tr.chunk = s.tr.chunk := by
  have hchunk : ((chunkAt s i).setWidth 64).toNat = (chunkAt s i).toNat := by
    rw [BitVec.toNat_setWidth]
    exact Nat.mod_eq_of_lt (lt_trans (BitVec.isLt _) (by norm_num))
  unfold stitch
  rw [decCur_ok hcur, andThen_next]
  simp only [withTr_tr]
  generalize hz : State.withTr (State.withTr _ _) _ = z
  have hzbuf : z.buf = s.buf := by subst hz; rfl
  have hzp : z.tr.p = s.tr.cur - 1 := by subst hz; rfl
  have hzblen : z.blen = s.blen := by subst hz; rfl
  rw [load_ok (sp := .buf) (b := b) (by simp only [spaceSize, hzblen]; omega) (by rw [spaceMem, hzbuf]; exact hb)]
  generalize ha : State.withTr (State.logged _ _) _ = a
  have habody : Body [.read .buf (s.tr.cur - 1)] s a := by
    subst ha hz
    exact ((body_logged_read ..).after_withTr.after_withTr).trans (body_withTr ..)
  have hap : a.tr.p = s.tr.cur - 1 := by subst ha; exact hzp
  have hasav : a.tr.sav = b := by subst ha; rfl
  have hachunk : a.tr.chunk = s.tr.chunk := by subst ha hz; rfl
  have hat : chunkAt a i = chunkAt s i := by rw [chunkAt, chunkAt, hachunk]
  obtain ⟨c, hc, hcbody, -, hckeep⟩ := fixed10Emit_ok (base := s.tr.cur - 1) (v := (chunkAt s i).setWidth 64) (s := a)
    (by rw [hchunk]; exact lt_trans (BitVec.isLt _) (by norm_num)) (by rw [habody.blen]; omega)
  rw [hat, logged_tr, hzp, hc, andThen_next, hckeep.p, hckeep.sav, hap, hasav,
    store_ok (by simp only [spaceSize, hcbody.blen, habody.blen]; omega), andThen_next]
  refine ⟨_, rfl, ?_, ?_, ?_⟩
  · rw [hchunk] at hcbody
    exact habody.trans (hcbody.trans ((body_stored ..).trans (body_withTr ..)))
  · simp only [withTr_tr, stored_tr, hckeep.p, hap]; omega
  · simp only [withTr_tr, stored_tr, hckeep.chunk, hachunk]

/-- A chunk of nine digits in its place in the text of the whole value. -/
theorem decDigit_chunk {v a i j : Nat} (hj : j < 9) :
    decDigit v (a + 9 + 9 * i) (a + j) = decDigit (v / 10 ^ (9 * i) % 10 ^ 9) 9 j := by
  rw [decDigit_upper (by omega), decDigit_lower hj]

/-- The ten characters of a chunk below 10^9 are '0' and its nine digits. -/
theorem textUp_chunk {off c : Nat} (h : c < 10 ^ 9) :
    textUp .buf off c 10 = .write .buf off 0x30 ::
      (List.range 9).map fun j => .write .buf (off + 1 + j) (asciiDigit (decDigit c 9 j)) := by
  rw [textUp_append .buf off c 1 9, Nat.div_eq_of_lt h, Nat.mod_eq_of_lt h, textUp_one (by omega)]
  rfl

/-- What stitching one chunk of the value stores is what R180 lists for it. -/
theorem chunkAccesses_eq {v d i k : Nat} (hd : 1 ≤ d) (hv : digits v = d + 9 * k + 9 + 9 * i) :
    chunkAccesses d (decByte v) k =
      .read .buf (d + 9 * k - 1) :: textUp .buf (d + 9 * k - 1) (v / 10 ^ (9 * i) % 10 ^ 9) 10 ++
        [.write .buf (d + 9 * k - 1) (decByte v (d + 9 * k - 1))] := by
  rw [textUp_chunk (Nat.mod_lt _ (by norm_num)), chunkAccesses]
  congr 3
  refine List.map_congr_left fun j hj => ?_
  rw [decByte, hv, show d + 9 * k - 1 + 1 = d + 9 * k by omega, decDigit_chunk (List.mem_range.1 hj)]
  rfl

/-- Restoring the boundary byte leaves the last digit of the chunk. -/
theorem memRead_stitched (m : Memory) (p c : Nat) (b : Byte) :
    memRead (replay .buf m (.read .buf p :: textUp .buf p c 10 ++ [.write .buf p b])) (p + 9) =
      some (asciiDigit (c % 10)) := by
  rw [List.cons_append, replay_cons, replay_append]
  change memRead (memWrite (replay .buf m (textUp .buf p c 10)) p b) (p + 9) = _
  rw [memRead_memWrite_of_ne _ _ (by omega), memRead_textUp, if_pos (by omega), show p + 9 - p = 9 by omega, decDigit_last]

/-- The chunks from the `k`-th below the top chunk on, each after its boundary byte (R180). -/
theorem stitchLoop_ok {v d : Nat} (hd : 1 ≤ d) : ∀ {count k : Nat} {s : State}, digits v = d + 9 * k + 9 * count →
    s.tr.cur = d + 9 * k → digits v ≤ s.blen →
    memRead s.buf (d + 9 * k - 1) = some (decByte v (d + 9 * k - 1)) →
    (∀ i, i < count → (chunkAt s i).toNat = v / 10 ^ (9 * i) % 10 ^ 9) →
    ∃ t, stitchLoop count s = .next t ∧ Body ((List.range' k count).flatMap (chunkAccesses d (decByte v))) s t := by
  intro count
  induction count with
  | zero => intro k s _ _ _ _ _; exact ⟨s, rfl, Body.refl s⟩
  | succ i ih =>
    intro k s hv hcur hlen hb hchunk
    obtain ⟨u, hu, hub, hucur, huchunk⟩ := stitch_ok (s := s) (i := i) (by omega) (by omega) (hcur ▸ hb)
    rw [hchunk i (by omega), hcur, ← chunkAccesses_eq hd (by omega)] at hub
    have hlast : decByte v (d + 9 * (k + 1) - 1) = asciiDigit (v / 10 ^ (9 * i) % 10 ^ 9 % 10) := by
      rw [decByte, show digits v = d + 9 * k + 9 + 9 * i by omega, show d + 9 * (k + 1) - 1 = d + 9 * k + 8 by omega,
        decDigit_chunk (by omega), decDigit_last]
      rfl
    have hbound : memRead u.buf (d + 9 * (k + 1) - 1) = some (decByte v (d + 9 * (k + 1) - 1)) := by
      rw [hub.buf, chunkAccesses_eq hd (i := i) (by omega), hlast, show d + 9 * (k + 1) - 1 = d + 9 * k - 1 + 9 by omega]
      exact memRead_stitched ..
    obtain ⟨t, ht, htb⟩ := ih (k := k + 1) (s := u) (by omega) (by omega) (by rw [hub.blen]; exact hlen) hbound
      (fun j hj => by rw [chunkAt, huchunk]; exact hchunk j (by omega))
    refine ⟨t, ?_, ?_⟩
    · rw [stitchLoop, hu, andThen_next, ht]
    · rw [List.range'_succ, List.flatMap_cons]
      exact hub.trans htb

/-- The text of the whole value starts with its top chunk. -/
theorem textUp_topChunk {v d m : Nat} (hv : digits v = d + 9 * m) :
    textUp .buf 0 (v / 10 ^ (9 * m)) d = (List.range d).map fun j => .write .buf j (decByte v j) := by
  refine List.map_congr_left fun j hj => ?_
  rw [decByte, hv, decDigit_upper (List.mem_range.1 hj), Nat.zero_add]
  rfl

end Sys2Proof.Machine
end

section
/-! SUPPORT. What the host and a trace see of a command: RLEN, STATUS and the accesses, or the refusal. `exec_view` says it for
every instruction and every state as a function of the command, the value, BLEN and which operands were written, so no command
faults and nothing else of the state enters. -/

namespace Sys2Proof.Machine

/-- RLEN, STATUS and the accesses after a command, or how it stops. -/
abbrev Verdict := Host.Outcome (Nat × Byte × List Access) Fault Refusal

/-- What is seen of an answer. -/
def view (o : Answer) : Verdict :=
  match o with
  | .next t => .next (t.rlen, t.status, t.trace)
  | .fault r => .fault r
  | .refused r => .refused r

theorem view_eq_next {o : Answer} {n : Nat} {st : Byte} {l : List Access} :
    view o = .next (n, st, l) ↔ ∃ t, o = .next t ∧ t.rlen = n ∧ t.status = st ∧ t.trace = l := by
  cases o <;> simp [view]

theorem view_eq_refused {o : Answer} {r : Refusal} : view o = .refused r ↔ o = .refused r := by
  cases o <;> simp [view]

/-! ### The verdicts -/

/-- The prologue's refusals (10_state.md R42), before the verdict of a command that has both operands. -/
def writtenVerdict (valWritten blenWritten : Bool) (v : Verdict) : Verdict :=
  if blenWritten then if valWritten then v else .refused .valNotWritten else .refused .blenNotWritten

/-- The capacity check (60_exceptions.md R191, R193) on a required length, with the accesses made before it and those of the
whole command. -/
def capacityVerdict (mode : Mode) (len need : Nat) (early whole : List Access) : Verdict :=
  if need ≤ len then .next (need, 0x01, whole)
  else
    match mode with
    | .checked => .next (0, 0x05, early)
    | .unchecked => .refused .uncheckedCapacity

/-- DCOUNT (41_digit_count_estimator.md R100, 30_encoding.md R77 e). -/
def countVerdict (mode : Mode) (valWritten : Bool) (v : Nat) : Verdict :=
  match mode with
  | .checked => if valWritten then .next (digits v, 0x01, []) else .refused .valNotWritten
  | .unchecked => .next (0, 0x09, [])

/-- LUTRD: the index test, then the capacity check (40_digit_pair_lut.md R94, 60_exceptions.md R198). -/
def pairVerdict (mode : Mode) (len v : Nat) : Verdict :=
  if 100 ≤ v then .next (0, 0x09, []) else capacityVerdict mode len 2 [] (textUp .buf 0 v 2)

/-- The stores of WRNT to SCR, made before its capacity check (42_naive_divmod_writer.md R124). -/
def scratchStores (v : Nat) : List Access := textDown .scr Config.scrLen v (digits v)

/-- What is seen of an instruction on the value `v`. -/
def verdict (i : Instr) (valWritten blenWritten : Bool) (len v : Nat) : Verdict :=
  match i with
  | .lutrdU8 mode => writtenVerdict valWritten blenWritten (pairVerdict mode len v)
  | .dcountU8 mode | .dcountU16 mode | .dcountU32 mode | .dcountU64 mode | .dcountU128 mode =>
    countVerdict mode valWritten v
  | .wrntU8 mode | .wrntU16 mode | .wrntU32 mode | .wrntU64 mode | .wrntU128 mode =>
    writtenVerdict valWritten blenWritten <| capacityVerdict mode len (digits v) (scratchStores v)
      (scratchStores v ++ copyAccesses (Config.scrLen - digits v) (decByte v) 0 (digits v))
  | .wrnxU8 mode | .wrnxU16 mode | .wrnxU32 mode | .wrnxU64 mode | .wrnxU128 mode =>
    writtenVerdict valWritten blenWritten <| capacityVerdict mode len (digits v) [] (textDown .buf (digits v) v (digits v))
  | .wrpU8 mode | .wrpU16 mode | .wrpU32 mode | .wrpU64 mode | .wrpU128 mode =>
    writtenVerdict valWritten blenWritten <| capacityVerdict mode len (digits v) [] (pairedStores (digits v) (decByte v))
  | .wrmU8 mode | .wrmU16 mode | .wrmU32 mode =>
    writtenVerdict valWritten blenWritten <| capacityVerdict mode len (digits v) [] (textUp .buf 0 v (digits v))
  | .wrf10U32 mode => writtenVerdict valWritten blenWritten <| capacityVerdict mode len 10 [] (textUp .buf 0 v 10)
  | .wrwU64 mode | .wrwU128 mode =>
    writtenVerdict valWritten blenWritten <| capacityVerdict mode len (digits v) []
      (wideAccesses (digits (topChunk v)) (lowerChunks v) (decByte v))

theorem capacityVerdict_of_le {mode : Mode} {len need : Nat} (h : need ≤ len) (early whole : List Access) :
    capacityVerdict mode len need early whole = .next (need, 0x01, whole) := if_pos h

theorem capacityVerdict_checked {len need : Nat} (h : len < need) (early whole : List Access) :
    capacityVerdict .checked len need early whole = .next (0, 0x05, early) := if_neg (by omega)

theorem capacityVerdict_unchecked {len need : Nat} (h : len < need) (early whole : List Access) :
    capacityVerdict .unchecked len need early whole = .refused .uncheckedCapacity := if_neg (by omega)

/-! ### Prologue and capacity check -/

theorem view_withValueAndLength (w : Width) (s : State) (k : State → Answer) :
    view (withValueAndLength w s k) =
      writtenVerdict s.valWritten s.blenWritten (view (k (s.issued.latched w))) := by
  rcases withValueAndLength_cases w s k with ⟨hv, hb, e⟩ | ⟨hb, e⟩ | ⟨hb, hv, e⟩ <;> rw [e, writtenVerdict, hb]
  · rw [hv]; rfl
  · rfl
  · rw [hv]; rfl

theorem Body.then_withTr {l : List Access} {s u : State} {t : Transients} (h : Body l s u) : Body l s (u.withTr t) := by
  have := h.trans (body_withTr u t)
  rwa [List.append_nil] at this

/-- After the accesses `l`: what the capacity check and the rest of the command show. -/
theorem view_capacity {w : Width} {s a : State} {l whole : List Access} {mode : Mode} {need : Nat} {k : State → Answer}
    (ha : Body l (s.issued.latched w) a)
    (hk : need ≤ s.blen → ∃ l' u, k a = .next (u.completed need) ∧ Body l' a u ∧ l ++ l' = whole) :
    view (capacity mode need a k) = capacityVerdict mode s.blen need l whole := by
  have hblen : a.blen = s.blen := ha.blen
  have htrace : a.trace = l := ha.trace
  rcases capacity_cases mode need a k with ⟨h, e⟩ | ⟨h, rfl, e⟩ | ⟨h, rfl, e⟩ <;> rw [hblen] at h <;> rw [e]
  · obtain ⟨l', u, hu, hbody, rfl⟩ := hk h
    rw [hu, capacityVerdict_of_le h, ← htrace, ← hbody.trace]
    rfl
  · rw [capacityVerdict_checked h, ← htrace]
    rfl
  · rw [capacityVerdict_unchecked h]
    rfl

/-! ### The commands, on the value `x` their prologue latches -/

theorem latched_value {w : Width} {s : State} {x : Nat} (hx : (operand w s.val).toNat = x) :
    (s.issued.latched w).tr.v.toNat = x := hx

theorem digitCount_latched {w : Width} {s : State} {x : Nat} (hx : (operand w s.val).toNat = x) :
    ∃ a, digitCount w (s.issued.latched w) = .next a ∧ a.tr.n.toNat = digits x ∧ a.tr.v.toNat = x ∧
      Body [] (s.issued.latched w) a := by
  obtain ⟨a, ha, hn, hv, hbody⟩ := digitCount_ok (s := s.issued.latched w) (operand_lt w s.val)
  rw [latched_value hx] at hn
  exact ⟨a, ha, hn, hv ▸ latched_value hx, hbody⟩

theorem dcount_view {w : Width} {s : State} {x : Nat} (hx : (operand w s.val).toNat = x) (mode : Mode) :
    view (dcount w mode s) = countVerdict mode s.valWritten x := by
  cases mode with
  | unchecked => rfl
  | checked =>
    rw [dcount, countVerdict]
    rcases withValue_cases w s fun s => andThen (digitCount w s) fun s => .next (s.completed s.tr.n.toNat) with
      ⟨hv, e⟩ | ⟨hv, e⟩ <;> rw [e, hv]
    · obtain ⟨a, ha, hn, -, hbody⟩ := digitCount_latched hx
      have htrace : a.trace = [] := hbody.trace
      rw [ha, andThen_next, hn, if_pos rfl, ← htrace]
      rfl
    · rfl

theorem lutrd_view {s : State} {x : Nat} (hx : (operand .w8 s.val).toNat = x) (mode : Mode) :
    view (execLutrdU8 mode s) = writtenVerdict s.valWritten s.blenWritten (pairVerdict mode s.blen x) := by
  rw [execLutrdU8, view_withValueAndLength]
  congr 1
  rw [latched_value hx, pairVerdict]
  split
  · rfl
  · next hi =>
    refine view_capacity (Body.refl _) fun hlen => ?_
    rw [latched_value hx, put2_ok (by omega) hlen, andThen_next, textUp_two (by omega)]
    exact ⟨_, _, rfl, (body_stored ..).trans (body_stored ..), rfl⟩

theorem wrnx_view {w : Width} {s : State} {x : Nat} (hx : (operand w s.val).toNat = x) (mode : Mode) :
    view (wrnx w mode s) = writtenVerdict s.valWritten s.blenWritten
      (capacityVerdict mode s.blen (digits x) [] (textDown .buf (digits x) x (digits x))) := by
  rw [wrnx, view_withValueAndLength]
  congr 1
  obtain ⟨a, ha, hn, hav, hbody⟩ := digitCount_latched hx
  rw [ha, andThen_next]
  dsimp only
  rw [hn]
  refine view_capacity hbody fun hlen => ?_
  have hblen : a.blen = s.blen := hbody.blen
  generalize hb : a.withTr _ = b
  have hbv : b.tr.v.toNat = x := by subst hb; exact hav
  have hbcur : b.tr.cur = digits x := by subst hb; rfl
  have hbbody : Body [] a b := by subst hb; exact body_withTr ..
  obtain ⟨t, ht, htb, -⟩ := naiveLoop_ok (sp := .buf) (passes := 39) (s := b) (digits_le_39 (BitVec.isLt _))
    (by rw [hbv, hbcur]) (by simp only [spaceSize, hbbody.blen]; omega)
  rw [hbv, hbcur] at htb
  exact ⟨_, t, by rw [ht, andThen_next], hbbody.trans htb, rfl⟩

/-- The scratch text of WRNT, read upward from where the cursor stopped. -/
theorem memRead_scratchStores (m : Memory) {x j : Nat} (hd : digits x ≤ Config.scrLen) (hj : j < digits x) :
    memRead (replay .scr m (scratchStores x)) (Config.scrLen - digits x + j) = some (decByte x j) := by
  rw [scratchStores, memRead_textDown m hd, if_pos (by omega), decByte, decDigit, asciiDigit,
    show Config.scrLen - 1 - (Config.scrLen - digits x + j) = digits x - 1 - j by omega]

theorem wrnt_view {w : Width} {s : State} {x : Nat} (hx : (operand w s.val).toNat = x) (mode : Mode) :
    view (wrnt w mode s) = writtenVerdict s.valWritten s.blenWritten
      (capacityVerdict mode s.blen (digits x) (scratchStores x)
        (scratchStores x ++ copyAccesses (Config.scrLen - digits x) (decByte x) 0 (digits x))) := by
  rw [wrnt, view_withValueAndLength]
  congr 1
  have h39 : digits x ≤ 39 := hx ▸ digits_le_39 (BitVec.isLt _)
  have hscr : Config.scrLen = 40 := rfl
  generalize ha : (s.issued.latched w).withTr _ = a
  have hav : a.tr.v.toNat = x := by subst ha; exact hx
  have hacur : a.tr.cur = Config.scrLen := by subst ha; rfl
  have habody : Body [] (s.issued.latched w) a := by subst ha; exact body_withTr ..
  obtain ⟨b, hb, hbbody, hbcur⟩ := naiveLoop_ok (sp := .scr) (passes := 39) (s := a) (by rw [hav]; exact h39)
    (by rw [hav, hacur]; omega) (by simp only [spaceSize]; omega)
  rw [hav, hacur, ← scratchStores] at hbbody
  rw [hav, hacur] at hbcur
  have hn : (BitVec.ofNat 6 (Config.scrLen - b.tr.cur)).toNat = digits x := by
    rw [BitVec.toNat_ofNat, hbcur, Nat.mod_eq_of_lt] <;> omega
  rw [hb, andThen_next]
  simp only [withTr_tr, hn]
  generalize hc : b.withTr _ = c
  have hccur : c.tr.cur = Config.scrLen - digits x := by subst hc; exact hbcur
  have hcscr : c.scr = b.scr := by subst hc; rfl
  have hcbody : Body (scratchStores x) (s.issued.latched w) c := by
    subst hc; exact (habody.trans hbbody).then_withTr
  have hblen : c.blen = s.blen := hcbody.blen
  refine view_capacity hcbody fun hlen => ?_
  obtain ⟨t, ht, htb⟩ := copyLoop_ok (text := decByte x) (count := digits x) (i := 0) (s := c)
    (fun j _ hj => by rw [hccur, hcbody.scr]; exact memRead_scratchStores _ (by omega) (by omega)) (by omega) (by omega)
  rw [hccur] at htb
  exact ⟨_, t, by rw [ht, andThen_next], htb, rfl⟩

theorem wrp_view {w : Width} {s : State} {x : Nat} (hx : (operand w s.val).toNat = x) (mode : Mode) :
    view (wrp w mode s) = writtenVerdict s.valWritten s.blenWritten
      (capacityVerdict mode s.blen (digits x) [] (pairedStores (digits x) (decByte x))) := by
  rw [wrp, view_withValueAndLength]
  congr 1
  obtain ⟨a, ha, hn, hav, hbody⟩ := digitCount_latched hx
  rw [ha, andThen_next]
  dsimp only
  rw [hn]
  refine view_capacity hbody fun hlen => ?_
  have hblen : a.blen = s.blen := hbody.blen
  generalize hb : a.withTr _ = b
  have hbv : b.tr.v.toNat = x := by subst hb; exact hav
  have hbcur : b.tr.cur = digits x := by subst hb; rfl
  have hbbody : Body [] a b := by subst hb; exact body_withTr ..
  have hbblen : b.blen = s.blen := hbbody.blen.trans hblen
  obtain ⟨k₁, c, hc, hcpairs, hclt⟩ := pairedPhase1_ok (passes := 9) (s := b)
    (lt_trans (BitVec.isLt _) (by norm_num)) (by rw [hbcur, hbv]) (by omega)
  obtain ⟨k₂, d, hd, hdpairs, hdlt⟩ := pairedPhase2_ok (passes := 1) (s := c) (by omega) hcpairs.left
    (by rw [hcpairs.body.blen, hcpairs.cur]; omega)
  obtain ⟨t, ht, htb⟩ := pairedPhase3_ok hbv hbcur (by omega) (hcpairs.trans hdpairs) hdlt
  exact ⟨_, t, by rw [hc, andThen_next, hd, andThen_next, ht, andThen_next], hbbody.trans htb, rfl⟩

theorem wrm_view {w : Width} {s : State} {x : Nat} (hw : widthBits w ≤ 32) (hx : (operand w s.val).toNat = x) (mode : Mode) :
    view (wrm w mode s) = writtenVerdict s.valWritten s.blenWritten
      (capacityVerdict mode s.blen (digits x) [] (textUp .buf 0 x (digits x))) := by
  rw [wrm, view_withValueAndLength]
  congr 1
  have hx32 : x < 2 ^ 32 := hx ▸ lt_of_lt_of_le (operand_lt w s.val) (Nat.pow_le_pow_right (by omega) hw)
  have h39 : digits x ≤ 39 := digits_le_39 (by omega)
  have hn : (BitVec.ofNat 6 (bandDigits x)).toNat = digits x := by
    rw [BitVec.toNat_ofNat, bandDigits_eq hx32, Nat.mod_eq_of_lt]; omega
  simp only [latched_value hx]
  generalize ha : State.withTr _ _ = a
  have han : a.tr.n.toNat = digits x := by subst ha; exact hn
  have hav : a.tr.v.toNat = x := by subst ha; exact hx
  have habody : Body [] (s.issued.latched w) a := by subst ha; exact body_withTr ..
  have hablen : a.blen = s.blen := habody.blen
  rw [han]
  refine view_capacity habody fun hlen => ?_
  obtain ⟨t, ht, htb, -⟩ := magicEmit_ok (base := 0) (v := a.tr.v) (s := a) (by omega) (by rw [hav]; omega)
  rw [hav] at htb
  exact ⟨_, t, by rw [ht, andThen_next], htb, rfl⟩

theorem wrf10_view {s : State} {x : Nat} (hx : (operand .w32 s.val).toNat = x) (mode : Mode) :
    view (execWrf10U32 mode s) = writtenVerdict s.valWritten s.blenWritten
      (capacityVerdict mode s.blen 10 [] (textUp .buf 0 x 10)) := by
  rw [execWrf10U32, view_withValueAndLength]
  congr 1
  refine view_capacity (Body.refl _) fun hlen => ?_
  have hx32 : (operand .w32 s.val).toNat < 2 ^ 32 := operand_lt .w32 s.val
  have h64 : ((s.issued.latched .w32).tr.v.setWidth 64).toNat = x := (setWidth64_toNat hx32).trans hx
  obtain ⟨t, ht, htb, -⟩ := fixed10Emit_ok (base := 0) (v := (s.issued.latched .w32).tr.v.setWidth 64)
    (s := s.issued.latched .w32) (by omega) (by rw [latched_blen, issued_blen]; omega)
  rw [h64] at htb
  exact ⟨_, t, by rw [ht, andThen_next], htb, rfl⟩

theorem wrw_view {w : Width} {s : State} {x : Nat} (hx : (operand w s.val).toNat = x) (mode : Mode) :
    view (wrw w mode s) = writtenVerdict s.valWritten s.blenWritten
      (capacityVerdict mode s.blen (digits x) [] (wideAccesses (digits (topChunk x)) (lowerChunks x) (decByte x))) := by
  rw [wrw, view_withValueAndLength]
  congr 1
  have hx128 : x < 2 ^ 128 := hx ▸ BitVec.isLt _
  have h39 : digits x ≤ 39 := digits_le_39 hx128
  obtain ⟨htop, hdig⟩ := topChunk_lt_and_digits x
  have hdpos := digits_pos (topChunk x)
  generalize ha : (s.issued.latched w).withTr _ = a
  have hav : a.tr.v.toNat = x := by subst ha; exact hx
  have ham : a.tr.m.toNat = 0 := by subst ha; rfl
  have habody : Body [] (s.issued.latched w) a := by subst ha; exact body_withTr ..
  obtain ⟨b, hb, hbv, hbm, -, hbchunk⟩ := splitLoop_ok (passes := 4) (s := a)
    (lt_trans (BitVec.isLt _) (by norm_num)) (by omega)
  have hbbody := splitLoop_body hb
  rw [hav] at hbv hbm hbchunk
  rw [ham, Nat.zero_add] at hbm
  have hn : (BitVec.ofNat 6 (bandDigits b.tr.v.toNat + 9 * b.tr.m.toNat)).toNat = digits x := by
    rw [BitVec.toNat_ofNat, hbv, hbm, bandDigits_eq htop, ← hdig, Nat.mod_eq_of_lt]; omega
  rw [hb, andThen_next]
  simp only [withTr_tr, hn]
  generalize hc : b.withTr _ = c
  have hcv : c.tr.v = b.tr.v := by subst hc; rfl
  have hcm : c.tr.m = b.tr.m := by subst hc; rfl
  have hcchunk : c.tr.chunk = b.tr.chunk := by subst hc; rfl
  have hcbody : Body [] (s.issued.latched w) c := by subst hc; exact (habody.trans hbbody).then_withTr
  have hcblen : c.blen = s.blen := hcbody.blen
  refine view_capacity hcbody fun hlen => ?_
  obtain ⟨d, hd, hdbody, hdcur, hdkeep⟩ := magicEmit_ok (base := 0) (v := b.tr.v) (s := c) (by omega) (by rw [hbv]; omega)
  rw [hbv] at hdbody hdcur
  rw [Nat.zero_add] at hdcur
  have hlast : memRead d.buf (digits (topChunk x) + 9 * 0 - 1) = some (decByte x (digits (topChunk x) + 9 * 0 - 1)) := by
    rw [hdbody.buf, memRead_textUp, if_pos (by omega), decByte, hdig, decDigit_upper (by omega)]
    rfl
  obtain ⟨t, ht, htb⟩ := stitchLoop_ok (v := x) hdpos (count := lowerChunks x) (k := 0) (s := d) (by omega) (by omega)
    (by rw [hdbody.blen]; omega) hlast fun i hi => by
      rw [chunkAt, hdkeep.chunk, hcchunk, ← hbchunk i hi, ham, Nat.zero_add]; rfl
  refine ⟨_, t, ?_, hdbody.trans htb, ?_⟩
  · rw [hcv, hd, andThen_next, hdkeep.m, hcm, hbm, ht, andThen_next]
  · rw [wideAccesses_eq, ← textUp_topChunk hdig]
    rfl

/-- What is seen of every instruction, in every state. -/
theorem exec_view (i : Instr) (s : State) :
    view (exec i s) = verdict i s.valWritten s.blenWritten s.blen (valueOf i s) := by
  have hx : (operand i.width s.val).toNat = valueOf i s := operand_toNat ..
  cases i with
  | lutrdU8 mode => exact lutrd_view hx mode
  | dcountU8 mode | dcountU16 mode | dcountU32 mode | dcountU64 mode | dcountU128 mode => exact dcount_view hx mode
  | wrntU8 mode | wrntU16 mode | wrntU32 mode | wrntU64 mode | wrntU128 mode => exact wrnt_view hx mode
  | wrnxU8 mode | wrnxU16 mode | wrnxU32 mode | wrnxU64 mode | wrnxU128 mode => exact wrnx_view hx mode
  | wrpU8 mode | wrpU16 mode | wrpU32 mode | wrpU64 mode | wrpU128 mode => exact wrp_view hx mode
  | wrmU8 mode => exact wrm_view (w := .w8) (by decide) hx mode
  | wrmU16 mode => exact wrm_view (w := .w16) (by decide) hx mode
  | wrmU32 mode => exact wrm_view (w := .w32) (by decide) hx mode
  | wrf10U32 mode => exact wrf10_view hx mode
  | wrwU64 mode | wrwU128 mode => exact wrw_view hx mode

end Sys2Proof.Machine
end

section
/-! PROOF. What every command keeps and what its outcome depends on, read off `exec_view` (10_state.md R34, R36, R37, R42,
60_exceptions.md R195, R199). -/

namespace Sys2Proof.Machine

/-! ### The ends a command can have -/

/-- The ends the epilogue gives RLEN and STATUS (60_exceptions.md R195): a success with a result of 1 to 39 bytes, or one of the
two faults with none. A refusal is no end, and a fault of the model never happens. -/
def Proper (v : Verdict) : Prop :=
  match v with
  | .next (n, st, _) => (st = 0x01 ∧ 1 ≤ n ∧ n ≤ 39) ∨ ((st = 0x05 ∨ st = 0x09) ∧ n = 0)
  | .fault _ => False
  | .refused _ => True

theorem proper_success {n : Nat} (h1 : 1 ≤ n) (h39 : n ≤ 39) (l : List Access) : Proper (.next (n, 0x01, l)) :=
  .inl ⟨rfl, h1, h39⟩

theorem proper_tooSmall (l : List Access) : Proper (.next (0, 0x05, l)) := .inr ⟨.inl rfl, rfl⟩

theorem proper_illegal (l : List Access) : Proper (.next (0, 0x09, l)) := .inr ⟨.inr rfl, rfl⟩

theorem proper_refused (r : Refusal) : Proper (.refused r) := trivial

theorem writtenVerdict_proper (valWritten blenWritten : Bool) {v : Verdict} (h : Proper v) :
    Proper (writtenVerdict valWritten blenWritten v) := by
  cases blenWritten with
  | false => exact proper_refused _
  | true =>
    cases valWritten with
    | false => exact proper_refused _
    | true => exact h

theorem capacityVerdict_proper (mode : Mode) (len : Nat) {need : Nat} (h1 : 1 ≤ need) (h39 : need ≤ 39)
    (early whole : List Access) : Proper (capacityVerdict mode len need early whole) := by
  rcases Nat.lt_or_ge len need with h | h
  · cases mode with
    | checked => rw [capacityVerdict_checked h]; exact proper_tooSmall _
    | unchecked => rw [capacityVerdict_unchecked h]; exact proper_refused _
  · rw [capacityVerdict_of_le h]; exact proper_success h1 h39 _

theorem pairVerdict_proper (mode : Mode) (len v : Nat) : Proper (pairVerdict mode len v) := by
  unfold pairVerdict
  split
  · exact proper_illegal _
  · exact capacityVerdict_proper mode len (by decide) (by decide) _ _

theorem countVerdict_proper (mode : Mode) (valWritten : Bool) {v : Nat} (h : digits v ≤ 39) :
    Proper (countVerdict mode valWritten v) := by
  cases mode with
  | unchecked => exact proper_illegal _
  | checked =>
    cases valWritten with
    | false => exact proper_refused _
    | true => exact proper_success (digits_pos v) h _

theorem verdict_proper (i : Instr) (valWritten blenWritten : Bool) (len : Nat) {v : Nat} (hv : v < 2 ^ 128) :
    Proper (verdict i valWritten blenWritten len v) := by
  have h39 := digits_le_39 hv
  have hwriter : ∀ mode early whole, Proper (writtenVerdict valWritten blenWritten
      (capacityVerdict mode len (digits v) early whole)) := fun mode early whole =>
    writtenVerdict_proper _ _ (capacityVerdict_proper mode len (digits_pos v) h39 early whole)
  cases i with
  | lutrdU8 mode => exact writtenVerdict_proper _ _ (pairVerdict_proper mode len v)
  | dcountU8 mode | dcountU16 mode | dcountU32 mode | dcountU64 mode | dcountU128 mode =>
    exact countVerdict_proper mode _ h39
  | wrntU8 mode | wrntU16 mode | wrntU32 mode | wrntU64 mode | wrntU128 mode => exact hwriter mode _ _
  | wrnxU8 mode | wrnxU16 mode | wrnxU32 mode | wrnxU64 mode | wrnxU128 mode => exact hwriter mode _ _
  | wrpU8 mode | wrpU16 mode | wrpU32 mode | wrpU64 mode | wrpU128 mode => exact hwriter mode _ _
  | wrmU8 mode | wrmU16 mode | wrmU32 mode => exact hwriter mode _ _
  | wrf10U32 mode => exact writtenVerdict_proper _ _ (capacityVerdict_proper mode len (by decide) (by decide) _ _)
  | wrwU64 mode | wrwU128 mode => exact hwriter mode _ _

theorem exec_proper (i : Instr) (s : State) : Proper (view (exec i s)) := by
  rw [exec_view]
  exact verdict_proper i _ _ _ (lt_of_le_of_lt (Nat.mod_le _ _) s.val.isLt)

theorem perform_proper (c : CmdWord) (s : State) : Proper (view (perform c s)) := by
  unfold perform
  split
  · exact exec_proper _ s
  · exact proper_illegal _

/-! ### The invariant -/

/-- A command leaves BUF canonical and SCR empty. -/
theorem Ends.memories {s t : State} (h : Ends s t) (hbuf : Memory.wf s.buf = true) :
    Memory.wf t.buf = true ∧ Memory.wf t.scr = true := by
  obtain ⟨l, u, hbody, hend⟩ := h
  have hu : Memory.wf u.buf = true := hbody.buf ▸ wf_replay .buf l hbuf
  obtain ⟨n, rfl⟩ | ⟨e, rfl⟩ := hend <;> exact ⟨hu, rfl⟩

theorem perform_stateInv {c : CmdWord} {s t : State} (hs : StateInv s) (h : perform c s = .next t) : StateInv t := by
  obtain ⟨hbuf, -, -, -, -⟩ := hs
  obtain ⟨hbuf', hscr'⟩ := (perform_ends h).memories hbuf
  have hproper : Proper (view (.next t)) := h ▸ perform_proper c s
  refine ⟨hbuf', hscr', ?_⟩
  rcases hproper with ⟨hst, h1, h39⟩ | ⟨hst | hst, hn⟩
  · exact ⟨.inr (.inl hst), h39, iff_of_true h1 hst⟩
  · rw [hst, hn]; decide
  · rw [hst, hn]; decide

/-- A host move writes no SCR; it fills BUF, or sets RLEN and STATUS to their reset values, or leaves all of these. -/
theorem hostMove_stateInv {move : HostMove} {s t : State} (hs : StateInv s) (h : hostMove move s = .next t) :
    StateInv t := by
  obtain ⟨hbuf, hscr, hrest⟩ := hs
  unfold hostMove at h
  split at h
  · simp at h
  · cases move with
    | writeBuf off bytes =>
      obtain rfl := Host.Outcome.next.inj h
      exact ⟨wf_memFill bytes hbuf off, hscr, hrest⟩
    | reset =>
      obtain rfl := Host.Outcome.next.inj h
      exact ⟨hbuf, rfl, .inl rfl, Nat.zero_le _, by simp⟩
    | readReg r =>
      cases r with
      | cmd => simp at h
      | val | blen | rlen | status =>
        obtain rfl := Host.Outcome.next.inj h
        exact ⟨hbuf, hscr, hrest⟩
    | writeVal | writeBlen | writeCmd | writeStatus | readBuf =>
      obtain rfl := Host.Outcome.next.inj h
      exact ⟨hbuf, hscr, hrest⟩

theorem hostTurn_stateInv {s t : State} (hs : StateInv s) (h : hostTurn s = .next t) : StateInv t := by
  unfold hostTurn at h
  split at h
  · obtain rfl := Host.Outcome.next.inj h
    exact hs
  · next _ rest _ => exact hostMove_stateInv (s := { s with script := rest }) hs h

/-- Settles O3. -/
theorem invariantAtReset : Obligations.InvariantAtReset := ⟨rfl, rfl, .inl rfl, Nat.zero_le _, by decide⟩

/-- Settles O4: a command ends in one of the two arms, with a result of 1 to 39 bytes or none, and its accesses keep BUF
canonical; the host's moves write no STATUS or RLEN but their reset values. -/
theorem stepKeepsInvariant : Obligations.StepKeepsInvariant := by
  intro s t hs h
  unfold step at h
  split at h
  · exact perform_stateInv hs h
  · exact hostTurn_stateInv hs h

/-! ### What the outcome depends on -/

theorem exec_next_or_refused (i : Instr) (s : State) :
    (∃ n st l, view (exec i s) = .next (n, st, l)) ∨ ∃ r, view (exec i s) = .refused r := by
  have h := exec_proper i s
  cases hview : view (exec i s) with
  | next v => exact .inl ⟨_, _, _, rfl⟩
  | fault r => rw [hview] at h; exact h.elim
  | refused r => exact .inr ⟨r, rfl⟩

/-- Settles O35: what is seen of a command is a function of the command, VAL, BLEN and the written flags (`exec_view`). -/
theorem outcomeDependsOnOperandsOnly : Obligations.OutcomeDependsOnOperandsOnly := by
  intro i s₁ s₂ hval hblen hvalW hblenW
  have heq : view (exec i s₁) = view (exec i s₂) := by
    rw [exec_view, exec_view, valueOf, valueOf, hval, hblen, hvalW, hblenW]
  rcases exec_next_or_refused i s₁ with ⟨n, st, l, h₁⟩ | ⟨r, h₁⟩
  · obtain ⟨t₁, ht₁, hn₁, hst₁, hl₁⟩ := view_eq_next.1 h₁
    obtain ⟨t₂, ht₂, hn₂, hst₂, hl₂⟩ := view_eq_next.1 (heq ▸ h₁)
    exact .inl ⟨t₁, t₂, ht₁, ht₂, hn₁.trans hn₂.symm, hst₁.trans hst₂.symm, hl₁.trans hl₂.symm⟩
  · exact .inr ⟨r, view_eq_refused.1 h₁, view_eq_refused.1 (heq ▸ h₁)⟩

/-! ### Unwritten operands -/

/-- Every command but DCOUNT starts with the prologue that needs both operands (10_state.md R42). -/
theorem verdict_of_writer {i : Instr} (h : i.modeless = false) (valWritten blenWritten : Bool) (len v : Nat) :
    ∃ o, verdict i valWritten blenWritten len v = writtenVerdict valWritten blenWritten o := by
  cases i with
  | dcountU8 | dcountU16 | dcountU32 | dcountU64 | dcountU128 => simp [Instr.modeless] at h
  | lutrdU8 | wrntU8 | wrntU16 | wrntU32 | wrntU64 | wrntU128 | wrnxU8 | wrnxU16 | wrnxU32 | wrnxU64 | wrnxU128
  | wrpU8 | wrpU16 | wrpU32 | wrpU64 | wrpU128 | wrmU8 | wrmU16 | wrmU32 | wrf10U32 | wrwU64 | wrwU128 => exact ⟨_, rfl⟩

theorem verdict_of_count {i : Instr} (h : i.modeless = true) (valWritten blenWritten : Bool) (len v : Nat) :
    verdict i valWritten blenWritten len v = countVerdict i.mode valWritten v := by
  cases i with
  | dcountU8 | dcountU16 | dcountU32 | dcountU64 | dcountU128 => rfl
  | lutrdU8 | wrntU8 | wrntU16 | wrntU32 | wrntU64 | wrntU128 | wrnxU8 | wrnxU16 | wrnxU32 | wrnxU64 | wrnxU128
  | wrpU8 | wrpU16 | wrpU32 | wrpU64 | wrpU128 | wrmU8 | wrmU16 | wrmU32 | wrf10U32 | wrwU64 | wrwU128 =>
    simp [Instr.modeless] at h

/-- Settles O29: the prologue refuses, of a writer for either operand and of DCOUNT for VAL alone. -/
theorem unwrittenOperandRefused : Obligations.UnwrittenOperandRefused := by
  refine ⟨fun i s hi hw => ?_, fun i s hi hm hw => ?_, fun i s hi hw => ?_⟩
  · obtain ⟨o, ho⟩ := verdict_of_writer hi s.valWritten s.blenWritten s.blen (valueOf i s)
    rw [← view_eq_refused, ← view_eq_refused, exec_view, ho, writtenVerdict]
    cases hb : s.blenWritten with
    | false => exact .inr rfl
    | true =>
      have hv : s.valWritten = false := Bool.eq_false_iff.2 fun hv => hw ⟨hv, hb⟩
      rw [hv]
      exact .inl rfl
  · rw [← view_eq_refused, exec_view, verdict_of_count hi, hm, hw]
    rfl
  · have hview := exec_view i s
    rw [verdict_of_count hi, hw] at hview
    cases hm : i.mode with
    | checked | unchecked =>
      rw [hm] at hview
      obtain ⟨t, ht, -⟩ := view_eq_next.1 hview
      exact ⟨t, ht⟩

end Sys2Proof.Machine
end

section
/-! PROOF. The host's register writes and its reads (10_state.md R30 to R36, 70_reset_and_hazards.md R213, R216). -/

namespace Sys2Proof.Machine

theorem step_of_script {s : State} {move : HostMove} {rest : List HostMove} (hcmd : s.cmd = none)
    (hs : s.script = move :: rest) : step s = hostMove move { s with script := rest } := by
  simp only [step, fetched, hcmd, hostTurn, hs]

/-! ### Each move at BUSY = 0 -/

section
variable {s : State} (h : statusBusy s.status = false)
include h

theorem hostMove_writeVal (v : Value) : hostMove (.writeVal v) s = .next { s with val := v, valWritten := true } := by
  simp [hostMove, h]

theorem hostMove_writeBlen (n : Nat) : hostMove (.writeBlen n) s = .next { s with blen := n, blenWritten := true } := by
  simp [hostMove, h]

theorem hostMove_writeCmd (c : CmdWord) : hostMove (.writeCmd c) s = .next { s with cmd := some c } := by
  simp [hostMove, h]

theorem hostMove_writeStatus (b : Byte) : hostMove (.writeStatus b) s = .next s := by simp [hostMove, h]

theorem hostMove_readBuf (off : Nat) : hostMove (.readBuf off) s = .next s := by simp [hostMove, h]

theorem hostMove_readReg {r : HostReg} (hr : r ≠ .cmd) : hostMove (.readReg r) s = .next s := by
  cases r with
  | cmd => exact absurd rfl hr
  | val | blen | rlen | status => simp [hostMove, h]

end

/-- STATUS may be read whatever BUSY is (R216). -/
theorem hostMove_readStatus (s : State) : hostMove (.readReg .status) s = .next s := by
  simp [hostMove, HostMove.whileBusy]

/-- Settles O8: each write is its own move, and no command is pending. -/
theorem hostWritesRegisters : Obligations.HostWritesRegisters := by
  intro s rest hcmd hidle
  have hbusy : statusBusy ({ s with script := rest } : State).status = false := hidle
  refine ⟨fun v hs => ?_, fun n hs => ?_, fun c hs => ?_, fun b hs => ?_⟩ <;> rw [step_of_script hcmd hs]
  · exact hostMove_writeVal hbusy v
  · exact hostMove_writeBlen hbusy n
  · exact hostMove_writeCmd hbusy c
  · exact hostMove_writeStatus hbusy b

/-- Settles O43: a read is a move that leaves the state, and `hostRead` gives the register's content. -/
theorem hostReadsChangeNothing : Obligations.HostReadsChangeNothing := by
  refine ⟨fun s rest hcmd => ⟨fun r hbusy hr hs => ?_, fun off hbusy hs => ?_, fun hs => ?_⟩,
    fun s => ⟨rfl, rfl, fun _ => rfl, fun _ => rfl⟩⟩ <;> rw [step_of_script hcmd hs]
  · exact hostMove_readReg (s := { s with script := rest }) hbusy hr
  · exact hostMove_readBuf (s := { s with script := rest }) hbusy off
  · exact hostMove_readStatus _

end Sys2Proof.Machine
end

section
/-! PROOF. The accesses of a command (20_memory.md R52, R57, R58, R60, R64, R65): none of them faults, `exec_accessPattern` says
once which lists of accesses a command can make, and BUF is what replaying the list makes of it. -/

namespace Sys2Proof.Machine

/-! ### No step faults -/

theorem ne_fault_of_proper {o : Answer} (h : Proper (view o)) (r : Fault) : o ≠ .fault r := by
  rintro rfl
  exact h

/-- A host move makes no access that could leave its space: it goes on or is refused. -/
theorem hostMove_ne_fault (move : HostMove) (s : State) (r : Fault) : hostMove move s ≠ .fault r := by
  unfold hostMove
  split
  · simp
  · cases move with
    | readReg reg => cases reg <;> simp
    | writeVal | writeBlen | writeBuf | writeCmd | writeStatus | readBuf | reset => simp

theorem hostTurn_ne_fault (s : State) (r : Fault) : hostTurn s ≠ .fault r := by
  unfold hostTurn
  split
  · simp
  · exact hostMove_ne_fault _ _ r

/-- Settles O30: a command ends in an arm of its epilogue or is refused, and the host's moves raise no fault. -/
theorem nothingEverFaults : Obligations.NothingEverFaults := by
  refine ⟨fun i s r => ne_fault_of_proper (exec_proper i s) r, fun s r => ?_⟩
  unfold step
  split
  · exact ne_fault_of_proper (perform_proper _ s) r
  · exact hostTurn_ne_fault s r

/-! ### BUF and the trace -/

theorem Ends.buf_eq_replay {s t : State} (h : Ends s t) : t.buf = replay .buf s.buf t.trace := by
  obtain ⟨l, u, hbody, hend⟩ := h
  have htrace : u.trace = l := hbody.trace
  have hbuf : u.buf = replay .buf s.buf u.trace := htrace ▸ hbody.buf
  obtain ⟨n, rfl⟩ | ⟨e, rfl⟩ := hend <;> exact hbuf

/-- Settles O34: the body of a command lists every store it makes, and the epilogue leaves BUF and the trace. -/
theorem traceExplainsBuffer : Obligations.TraceExplainsBuffer := fun _ _ _ h => (exec_ends h).buf_eq_replay

/-! ### Issuing a command again -/

/-- After a list of accesses a byte is either one the list fixes, whatever the memory was, or the byte that was there. -/
theorem memRead_replay_cases (sp : Space) (l : List Access) (a : Nat) :
    (∃ b, ∀ m, memRead (replay sp m l) a = some b) ∨ ∀ m, memRead (replay sp m l) a = memRead m a := by
  induction l with
  | nil => exact .inr fun _ => rfl
  | cons x rest ih =>
    simp only [replay_cons]
    rcases ih with ⟨b, hb⟩ | hrest
    · exact .inl ⟨b, fun m => hb _⟩
    · simp only [hrest]
      cases x with
      | read sp' off => exact .inr fun _ => rfl
      | write sp' off b =>
        by_cases hx : sp' = sp ∧ a = off
        · obtain ⟨rfl, rfl⟩ := hx
          exact .inl ⟨b, fun m => by simp [applyAccess]⟩
        · refine .inr fun m => ?_
          simp only [applyAccess]
          split
          · next hsp => exact memRead_memWrite_of_ne m b fun ha => hx ⟨hsp, ha⟩
          · rfl

/-- Making the same accesses twice leaves what making them once leaves. -/
theorem replay_replay (sp : Space) (l : List Access) {m : Memory} (h : Memory.wf m = true) :
    replay sp (replay sp m l) l = replay sp m l := by
  have hl := wf_replay sp l h
  refine Memory.ext_of_wf (wf_replay sp l hl) hl fun a => ?_
  rcases memRead_replay_cases sp l a with ⟨b, hb⟩ | hkeep
  · rw [hb, hb]
  · exact hkeep _

/-- A command leaves its operands (60_exceptions.md R195). -/
theorem Ends.operands {s t : State} (h : Ends s t) :
    t.val = s.val ∧ t.blen = s.blen ∧ t.valWritten = s.valWritten ∧ t.blenWritten = s.blenWritten := by
  obtain ⟨l, u, hbody, ⟨n, rfl⟩ | ⟨e, rfl⟩⟩ := h <;>
    exact ⟨hbody.val, hbody.blen, hbody.valWritten, hbody.blenWritten⟩

/-- Settles O37: the operands are still there, so the second command makes the accesses of the first, and these leave BUF as
they left it. -/
theorem reissueLeavesSameResult : Obligations.ReissueLeavesSameResult := by
  intro i s t hwf h
  obtain ⟨hval, hblen, hvalW, hblenW⟩ := (exec_ends h).operands
  rcases outcomeDependsOnOperandsOnly i s t hval.symm hblen.symm hvalW.symm hblenW.symm with
    ⟨t', u, ht', hu, hrlen, hstatus, htrace⟩ | ⟨r, hr, -⟩
  · obtain rfl : t = t' := Host.Outcome.next.inj (h.symm.trans ht')
    refine ⟨u, hu, ?_, hrlen.symm, hstatus.symm⟩
    rw [(exec_ends hu).buf_eq_replay, ← htrace, (exec_ends h).buf_eq_replay]
    exact replay_replay .buf t.trace hwf
  · exact absurd (h.symm.trans hr) (by simp)

/-! ### The lists of accesses -/

/-- Every access is a store to BUF below `n`. -/
def StoresBelow (n : Nat) (l : List Access) : Prop := ∀ a ∈ l, ∃ off b, a = .write .buf off b ∧ off < n

theorem storesBelow_textUp (x n : Nat) : StoresBelow n (textUp .buf 0 x n) := by
  intro a ha
  obtain ⟨j, hj, rfl⟩ := List.mem_map.1 ha
  have := List.mem_range.1 hj
  exact ⟨_, _, rfl, by omega⟩

theorem storesBelow_textDown (x n : Nat) : StoresBelow n (textDown .buf n x n) := by
  intro a ha
  obtain ⟨k, hk, rfl⟩ := List.mem_map.1 ha
  have := List.mem_range.1 hk
  exact ⟨_, _, rfl, by omega⟩

theorem storesBelow_pairedStores (n : Nat) (text : Nat → Byte) : StoresBelow n (pairedStores n text) := by
  intro a ha
  rcases List.mem_append.1 ha with ha | ha
  · obtain ⟨k, hk, ha⟩ := List.mem_flatMap.1 ha
    have := List.mem_range.1 hk
    simp only [List.mem_cons, List.not_mem_nil, or_false] at ha
    rcases ha with rfl | rfl <;> exact ⟨_, _, rfl, by omega⟩
  · split at ha
    · obtain rfl := List.mem_singleton.1 ha
      exact ⟨_, _, rfl, by omega⟩
    · simp at ha

/-- Where the stores of WRNT to SCR lie: at the offsets below 40 that its text takes. -/
theorem mem_scratchStores {v : Nat} {a : Access} :
    a ∈ scratchStores v ↔
      ∃ k, k < digits v ∧ a = .write .scr (Config.scrLen - 1 - k) (asciiDigit (v / 10 ^ k % 10)) := by
  simp [scratchStores, textDown, eq_comm]

theorem mem_copyAccesses {cur n : Nat} {text : Nat → Byte} {a : Access} :
    a ∈ copyAccesses cur text 0 n ↔ ∃ j, j < n ∧ (a = .read .scr (cur + j) ∨ a = .write .buf j (text j)) := by
  simp [copyAccesses]

theorem mem_chunkAccesses {d k : Nat} {text : Nat → Byte} {a : Access} (h : a ∈ chunkAccesses d text k) :
    a = .read .buf (d + 9 * k - 1) ∨ ∃ j b, a = .write .buf (d + 9 * k - 1 + j) b ∧ j < 10 := by
  simp only [chunkAccesses, List.cons_append, List.mem_cons, List.mem_append, List.mem_map, List.mem_range,
    List.not_mem_nil, or_false] at h
  rcases h with rfl | rfl | ⟨j, hj, rfl⟩ | rfl
  · exact .inl rfl
  · exact .inr ⟨0, _, rfl, by omega⟩
  · exact .inr ⟨1 + j, _, by rw [Nat.add_assoc], by omega⟩
  · exact .inr ⟨0, _, rfl, by omega⟩

theorem wideAccesses_succ (d m : Nat) (text : Nat → Byte) :
    wideAccesses d (m + 1) text = wideAccesses d m text ++ chunkAccesses d text m := by
  simp [wideAccesses_eq, List.range'_1_concat]

theorem mem_wideAccesses {d m : Nat} (hd : 1 ≤ d) {text : Nat → Byte} {a : Access} (h : a ∈ wideAccesses d m text) :
    a.space = .buf ∧ a.offset < d + 9 * m := by
  induction m with
  | zero =>
    rw [wideAccesses_zero] at h
    obtain ⟨j, hj, rfl⟩ := List.mem_map.1 h
    exact ⟨rfl, List.mem_range.1 hj⟩
  | succ m ih =>
    rw [wideAccesses_succ] at h
    rcases List.mem_append.1 h with h | h
    · obtain ⟨hsp, hoff⟩ := ih h
      exact ⟨hsp, by omega⟩
    · rcases mem_chunkAccesses h with rfl | ⟨j, b, rfl, hj⟩ <;> exact ⟨rfl, by simp only [Access.offset]; omega⟩

/-- The last byte of the text so far, which the next chunk reads as its boundary byte, has been written (R180). -/
theorem boundary_mem_wideAccesses {d : Nat} (hd : 1 ≤ d) (m : Nat) (text : Nat → Byte) :
    .write .buf (d + 9 * m - 1) (text (d + 9 * m - 1)) ∈ wideAccesses d m text := by
  cases m with
  | zero =>
    rw [wideAccesses_zero]
    exact List.mem_map.2 ⟨d - 1, List.mem_range.2 (by omega), rfl⟩
  | succ m =>
    rw [wideAccesses_succ, show d + 9 * (m + 1) - 1 = d + 9 * m - 1 + 1 + 8 by omega]
    refine List.mem_append_right _ ?_
    simp only [chunkAccesses, List.cons_append, List.mem_cons, List.mem_append, List.mem_map]
    exact .inr (.inr (.inl ⟨8, by decide, rfl⟩))

/-! ### What accesses a command can make -/

/-- The commands that use SCR (20_memory.md R52). -/
abbrev UsesScratch (i : Instr) : Prop :=
  i.withMode .checked ∈ [Instr.wrntU8 .checked, .wrntU16 .checked, .wrntU32 .checked, .wrntU64 .checked, .wrntU128 .checked]

/-- The commands that read BUF (20_memory.md R65). -/
abbrev ReadsBuf (i : Instr) : Prop := i.withMode .checked ∈ [Instr.wrwU64 .checked, .wrwU128 .checked]

theorem modeless_withMode (i : Instr) (mode : Mode) : (i.withMode mode).modeless = i.modeless := by cases i <;> rfl

theorem modeless_of_row {i : Instr} {mode : Mode} {rows : List Instr} (hrows : ∀ j ∈ rows, j.modeless = false)
    (h : i.withMode mode ∈ rows) : i.modeless = false := by
  rw [← modeless_withMode i mode]
  exact hrows _ h

theorem UsesScratch.modeless {i : Instr} (h : UsesScratch i) : i.modeless = false := modeless_of_row (by decide) h

theorem ReadsBuf.modeless {i : Instr} (h : ReadsBuf i) : i.modeless = false := modeless_of_row (by decide) h

/-- The accesses of a command on the value `v` that ends with RLEN = `n`: none; or stores to BUF alone; or, for WRNT, the scratch
text and, where the result fits, its copy; or those of WRW. -/
inductive AccessPattern (i : Instr) (v : Nat) : Nat → List Access → Prop
  | none (n : Nat) : AccessPattern i v n []
  | stores {n : Nat} {l : List Access} : i.modeless = false → StoresBelow n l → AccessPattern i v n l
  | scratch : UsesScratch i → AccessPattern i v 0 (scratchStores v)
  | copied : UsesScratch i → AccessPattern i v (digits v)
      (scratchStores v ++ copyAccesses (Config.scrLen - digits v) (decByte v) 0 (digits v))
  | wide : ReadsBuf i → AccessPattern i v (digits v) (wideAccesses (digits (topChunk v)) (lowerChunks v) (decByte v))

/-- Where the verdict is a next state, its RLEN and accesses are as `P` says. -/
def Shows (P : Nat → List Access → Prop) (o : Verdict) : Prop := ∀ n st l, o = .next (n, st, l) → P n l

section
variable {P : Nat → List Access → Prop}

theorem shows_next {n : Nat} {st : Byte} {l : List Access} : Shows P (.next (n, st, l)) ↔ P n l := by
  simp [Shows]

theorem shows_refused (r : Refusal) : Shows P (.refused r) := by simp [Shows]

theorem shows_writtenVerdict (valWritten blenWritten : Bool) {o : Verdict} (h : Shows P o) :
    Shows P (writtenVerdict valWritten blenWritten o) := by
  cases blenWritten with
  | false => exact shows_refused _
  | true =>
    cases valWritten with
    | false => exact shows_refused _
    | true => exact h

theorem shows_capacityVerdict (mode : Mode) (len : Nat) {need : Nat} {early whole : List Access} (hearly : P 0 early)
    (hwhole : P need whole) : Shows P (capacityVerdict mode len need early whole) := by
  rcases Nat.lt_or_ge len need with h | h
  · cases mode with
    | checked => rw [capacityVerdict_checked h]; exact shows_next.2 hearly
    | unchecked => rw [capacityVerdict_unchecked h]; exact shows_refused _
  · rw [capacityVerdict_of_le h]; exact shows_next.2 hwhole

theorem shows_countVerdict (mode : Mode) (valWritten : Bool) (v : Nat) (h : ∀ n, P n []) :
    Shows P (countVerdict mode valWritten v) := by
  cases mode with
  | unchecked => exact shows_next.2 (h 0)
  | checked =>
    cases valWritten with
    | false => exact shows_refused _
    | true => exact shows_next.2 (h _)

end

theorem verdict_shows_accessPattern (i : Instr) (valWritten blenWritten : Bool) (len v : Nat) :
    Shows (AccessPattern i v) (verdict i valWritten blenWritten len v) := by
  have hwriter : ∀ mode {need early whole}, AccessPattern i v 0 early → AccessPattern i v need whole →
      Shows (AccessPattern i v) (writtenVerdict valWritten blenWritten (capacityVerdict mode len need early whole)) :=
    fun mode _ _ _ hearly hwhole => shows_writtenVerdict _ _ (shows_capacityVerdict mode len hearly hwhole)
  have hwrnt := fun mode (h : UsesScratch i) => hwriter mode (.scratch h) (.copied h)
  cases i with
  | lutrdU8 mode =>
    refine shows_writtenVerdict _ _ ?_
    rw [pairVerdict]
    split
    · exact shows_next.2 (.none 0)
    · exact shows_capacityVerdict mode len (.none 0) (.stores rfl (storesBelow_textUp v 2))
  | dcountU8 mode | dcountU16 mode | dcountU32 mode | dcountU64 mode | dcountU128 mode =>
    exact shows_countVerdict mode valWritten v .none
  | wrntU8 mode | wrntU16 mode | wrntU32 mode | wrntU64 mode | wrntU128 mode =>
    exact hwrnt mode (by simp [Instr.withMode])
  | wrnxU8 mode | wrnxU16 mode | wrnxU32 mode | wrnxU64 mode | wrnxU128 mode =>
    exact hwriter mode (.none 0) (.stores rfl (storesBelow_textDown v (digits v)))
  | wrpU8 mode | wrpU16 mode | wrpU32 mode | wrpU64 mode | wrpU128 mode =>
    exact hwriter mode (.none 0) (.stores rfl (storesBelow_pairedStores (digits v) (decByte v)))
  | wrmU8 mode | wrmU16 mode | wrmU32 mode => exact hwriter mode (.none 0) (.stores rfl (storesBelow_textUp v (digits v)))
  | wrf10U32 mode => exact hwriter mode (.none 0) (.stores rfl (storesBelow_textUp v 10))
  | wrwU64 mode | wrwU128 mode => exact hwriter mode (.none 0) (.wide (by simp [ReadsBuf, Instr.withMode]))

/-- All the accesses a command can make. -/
theorem exec_accessPattern {i : Instr} {s t : State} (h : exec i s = .next t) :
    AccessPattern i (valueOf i s) t.rlen t.trace := by
  refine verdict_shows_accessPattern i s.valWritten s.blenWritten s.blen (valueOf i s) t.rlen t.status t.trace ?_
  rw [← exec_view, h]
  rfl

/-! ### Where the accesses lie -/

theorem digits_valueOf_le (i : Instr) (s : State) : digits (valueOf i s) ≤ 39 :=
  digits_le_39 (lt_of_le_of_lt (Nat.mod_le _ _) s.val.isLt)

/-- A store of WRNT to SCR lies at 1 to 39: its text has at most 39 characters and ends at offset 39 (20_memory.md R52). -/
theorem scratchStores_range {v : Nat} (hv : digits v ≤ 39) {a : Access} (h : a ∈ scratchStores v) :
    a.space = .scr ∧ 1 ≤ a.offset ∧ a.offset < 40 := by
  obtain ⟨k, hk, rfl⟩ := mem_scratchStores.1 h
  have hscr : Config.scrLen = 40 := rfl
  exact ⟨rfl, by simp only [Access.offset]; omega, by simp only [Access.offset]; omega⟩

/-- The copy of WRNT reads SCR at 1 to 39 and writes BUF below the text's length. -/
theorem copyAccesses_range {v : Nat} {text : Nat → Byte} (hv : digits v ≤ 39) {a : Access}
    (h : a ∈ copyAccesses (Config.scrLen - digits v) text 0 (digits v)) :
    (a.space = .scr ∧ 1 ≤ a.offset ∧ a.offset < 40) ∨ (a.space = .buf ∧ a.offset < digits v) := by
  obtain ⟨j, hj, rfl | rfl⟩ := mem_copyAccesses.1 h
  · have hscr : Config.scrLen = 40 := rfl
    exact .inl ⟨rfl, by simp only [Access.offset]; omega, by simp only [Access.offset]; omega⟩
  · exact .inr ⟨rfl, hj⟩

/-- Every access lies in BUF below RLEN, or, for WRNT, in SCR at 1 to 39. -/
theorem AccessPattern.range {i : Instr} {v n : Nat} {l : List Access} (h : AccessPattern i v n l) (hv : digits v ≤ 39)
    {a : Access} (ha : a ∈ l) :
    i.modeless = false ∧
      ((a.space = .buf ∧ a.offset < n) ∨ (a.space = .scr ∧ 1 ≤ a.offset ∧ a.offset < 40 ∧ UsesScratch i)) := by
  cases h with
  | none => simp at ha
  | stores hi hl =>
    obtain ⟨off, b, rfl, hoff⟩ := hl a ha
    exact ⟨hi, .inl ⟨rfl, hoff⟩⟩
  | scratch hi =>
    obtain ⟨hsp, hlo, hhi⟩ := scratchStores_range hv ha
    exact ⟨hi.modeless, .inr ⟨hsp, hlo, hhi, hi⟩⟩
  | copied hi =>
    refine ⟨hi.modeless, ?_⟩
    rcases List.mem_append.1 ha with ha | ha
    · obtain ⟨hsp, hlo, hhi⟩ := scratchStores_range hv ha
      exact .inr ⟨hsp, hlo, hhi, hi⟩
    · rcases copyAccesses_range hv ha with ⟨hsp, hlo, hhi⟩ | hbuf
      · exact .inr ⟨hsp, hlo, hhi, hi⟩
      · exact .inl hbuf
  | wide hi =>
    obtain ⟨-, hdig⟩ := topChunk_lt_and_digits v
    rw [hdig]
    exact ⟨hi.modeless, .inl (mem_wideAccesses (digits_pos _) ha)⟩

/-- Settles O32. -/
theorem accessesStayInTheResult : Obligations.AccessesStayInTheResult := by
  intro i s t h a ha
  obtain ⟨hi, ⟨hsp, hoff⟩ | ⟨hsp, hscr⟩⟩ := (exec_accessPattern h).range (digits_valueOf_le i s) ha
  · exact ⟨hi, fun _ => hoff, fun hscr => absurd (hsp.symm.trans hscr) (by decide)⟩
  · exact ⟨hi, fun hbuf => absurd (hsp.symm.trans hbuf) (by decide), fun _ => hscr⟩

/-! ### What the reads find -/

/-- Every read is of a byte that an earlier access of the list wrote. -/
def ReadsOwn (l : List Access) : Prop :=
  ∀ before sp off after, l = before ++ .read sp off :: after → ∃ b, Access.write sp off b ∈ before

theorem readsOwn_of_no_read {l : List Access} (h : ∀ sp off, Access.read sp off ∉ l) : ReadsOwn l := by
  rintro before sp off after rfl
  exact absurd (List.mem_append_right _ List.mem_cons_self) (h sp off)

theorem ReadsOwn.append {l l' : List Access} (h : ReadsOwn l)
    (h' : ∀ sp off, Access.read sp off ∈ l' → ∃ b, Access.write sp off b ∈ l) : ReadsOwn (l ++ l') := by
  intro before sp off after heq
  rcases List.append_eq_append_iff.1 heq with ⟨mid, rfl, hl'⟩ | ⟨mid, hl, hread⟩
  · obtain ⟨b, hb⟩ := h' sp off (hl' ▸ List.mem_append_right _ List.mem_cons_self)
    exact ⟨b, List.mem_append_left _ hb⟩
  · cases mid with
    | nil =>
      obtain ⟨b, hb⟩ := h' sp off (by rw [← List.nil_append l', ← hread]; exact List.mem_cons_self)
      exact ⟨b, by simpa [hl] using hb⟩
    | cons x rest =>
      obtain ⟨rfl, -⟩ := List.cons.inj hread
      exact h before sp off rest hl

theorem StoresBelow.no_read {n : Nat} {l : List Access} (h : StoresBelow n l) (sp : Space) (off : Nat) :
    Access.read sp off ∉ l := by
  intro hr
  obtain ⟨_, _, heq, -⟩ := h _ hr
  cases heq

theorem scratchStores_no_read (v : Nat) (sp : Space) (off : Nat) : Access.read sp off ∉ scratchStores v := by
  intro hr
  obtain ⟨_, -, heq⟩ := mem_scratchStores.1 hr
  cases heq

/-- What the copy of WRNT reads, the scratch text has written (42_naive_divmod_writer.md R124). -/
theorem copied_readsOwn {v : Nat} (hv : digits v ≤ Config.scrLen) (text : Nat → Byte) :
    ReadsOwn (scratchStores v ++ copyAccesses (Config.scrLen - digits v) text 0 (digits v)) := by
  refine (readsOwn_of_no_read (scratchStores_no_read v)).append fun sp off hr => ?_
  obtain ⟨j, hj, heq | heq⟩ := mem_copyAccesses.1 hr <;> cases heq
  rw [show Config.scrLen - digits v + j = Config.scrLen - 1 - (digits v - 1 - j) by omega]
  exact ⟨_, mem_scratchStores.2 ⟨_, by omega, rfl⟩⟩

/-- Each boundary byte WRW reads is the last byte of the text written so far (45_wide_splitter.md R180). -/
theorem wideAccesses_readsOwn {d : Nat} (hd : 1 ≤ d) (m : Nat) (text : Nat → Byte) : ReadsOwn (wideAccesses d m text) := by
  induction m with
  | zero => exact readsOwn_of_no_read fun sp off => by simp [wideAccesses_zero]
  | succ m ih =>
    rw [wideAccesses_succ]
    refine ih.append fun sp off hr => ?_
    rcases mem_chunkAccesses hr with heq | ⟨_, _, heq, -⟩ <;> cases heq
    exact ⟨_, boundary_mem_wideAccesses hd m text⟩

theorem AccessPattern.readsOwn {i : Instr} {v n : Nat} {l : List Access} (h : AccessPattern i v n l) (hv : digits v ≤ 39) :
    ReadsOwn l := by
  cases h with
  | none => exact readsOwn_of_no_read (by simp)
  | stores _ hl => exact readsOwn_of_no_read hl.no_read
  | scratch => exact readsOwn_of_no_read (scratchStores_no_read v)
  | copied => exact copied_readsOwn (le_trans hv (by decide)) _
  | wide => exact wideAccesses_readsOwn (digits_pos _) _ _

theorem AccessPattern.readsBuf {i : Instr} {v n off : Nat} {l : List Access} (h : AccessPattern i v n l)
    (hr : .read .buf off ∈ l) : ReadsBuf i := by
  cases h with
  | none => simp at hr
  | stores _ hl => exact absurd hr (hl.no_read _ _)
  | scratch => exact absurd hr (scratchStores_no_read v _ _)
  | copied =>
    rcases List.mem_append.1 hr with hr | hr
    · exact absurd hr (scratchStores_no_read v _ _)
    · obtain ⟨j, -, heq | heq⟩ := mem_copyAccesses.1 hr <;> cases heq
  | wide hi => exact hi

/-- Settles O33: WRNT copies the scratch text it has written, WRW reads the last byte of the text so far, and no other command
reads. -/
theorem readsFollowOwnWrites : Obligations.ReadsFollowOwnWrites := by
  intro i s t h before sp off after htrace
  have hpattern := exec_accessPattern h
  refine ⟨hpattern.readsOwn (digits_valueOf_le i s) before sp off after htrace, ?_⟩
  rintro rfl
  exact hpattern.readsBuf (htrace ▸ List.mem_append_right _ List.mem_cons_self)

end Sys2Proof.Machine
end

section
/-! PROOF. The encoding (30_encoding.md R70 to R80): a word is its four fields, `rowOf` selects a row by the fields of the row's
own words, and so the decoder inverts the encoder on the well-formed commands and refuses every other word. -/

namespace Sys2Proof

/-! ### The fields of a word -/

theorem opField_toNat (c : CmdWord) : (opField c).toNat = c.toNat % 16 := by simp [opField]

theorem wselField_toNat (c : CmdWord) : (wselField c).toNat = c.toNat / 16 % 8 := by
  simp [wselField, Nat.shiftRight_eq_div_pow]

theorem zeroField_toNat (c : CmdWord) : (zeroField c).toNat = c.toNat / 256 := by
  have h := c.isLt
  simp only [zeroField, BitVec.extractLsb'_toNat, Nat.shiftRight_eq_div_pow]
  omega

theorem zeroField_eq_zero_iff (c : CmdWord) : zeroField c = 0 ↔ c.toNat / 256 = 0 := by
  rw [← BitVec.toNat_inj, zeroField_toNat]
  rfl

theorem modeField_eq_unchecked_iff (c : CmdWord) : modeField c = .unchecked ↔ c.toNat / 128 % 2 = 1 := by
  simp [modeField, BitVec.getLsbD, Nat.testBit_eq_decide_div_mod_eq]

theorem modeField_eq_checked_iff (c : CmdWord) : modeField c = .checked ↔ c.toNat / 128 % 2 = 0 := by
  simp [modeField, BitVec.getLsbD, Nat.testBit_eq_decide_div_mod_eq]

theorem modeBit_eq_of_modeField_eq {c d : CmdWord} (h : modeField c = modeField d) :
    c.toNat / 128 % 2 = d.toNat / 128 % 2 := by
  cases hd : modeField d with
  | checked => rw [(modeField_eq_checked_iff c).1 (h.trans hd), (modeField_eq_checked_iff d).1 hd]
  | unchecked => rw [(modeField_eq_unchecked_iff c).1 (h.trans hd), (modeField_eq_unchecked_iff d).1 hd]

/-- ZERO, UNCHK, WSEL and OP are the whole word (R70). -/
theorem eq_of_fields_eq {c d : CmdWord} (hzero : zeroField c = zeroField d) (hmode : modeField c = modeField d)
    (hwsel : (wselField c).toNat = (wselField d).toNat) (hop : (opField c).toNat = (opField d).toNat) : c = d := by
  have hhigh : c.toNat / 256 = d.toNat / 256 := by rw [← zeroField_toNat, ← zeroField_toNat, hzero]
  have hbit := modeBit_eq_of_modeField_eq hmode
  rw [wselField_toNat, wselField_toNat] at hwsel
  rw [opField_toNat, opField_toNat] at hop
  exact BitVec.eq_of_toNat_eq (by omega)

/-! ### The command map -/

/-- Bits 15:8 of the words of R75 are 0. -/
theorem zeroField_encode (i : Instr) : zeroField (encode i) = 0 := by
  cases i with | _ mode => cases mode <;> decide

/-- A row is selected by the fields of its own words, and by no others (R71, R72, R75). -/
theorem rowOf_eq_some_iff {op wsel : Nat} {mode : Mode} {i : Instr} : rowOf op wsel mode = some i ↔
    op = (opField (encode i)).toNat ∧ wsel = (wselField (encode i)).toNat ∧ mode = modeField (encode i) := by
  constructor
  · intro h
    unfold rowOf at h
    split at h <;> cases h <;> cases mode <;> decide
  · rintro ⟨rfl, rfl, rfl⟩
    cases i with | _ mode => cases mode <;> rfl

/-- The pairs that are no row (R77 b, c, d). -/
theorem rowOf_eq_none_iff {op wsel : Nat} {mode : Mode} : rowOf op wsel mode = none ↔
    op = 0 ∨ 9 ≤ op ∨ 5 ≤ wsel ∨ (op = 1 ∧ wsel ≠ 0) ∨ (op = 6 ∧ 3 ≤ wsel) ∨ (op = 7 ∧ wsel ≠ 2) ∨ (op = 8 ∧ wsel < 3) := by
  unfold rowOf
  split
  case h_28 => -- the pairs that are no row
    simp only [true_iff]
    grind
  all_goals simp

/-- The rows that UNCHK makes ill formed: DCOUNT at each width (R73, R77 e). -/
theorem exists_rowOf_illFormed_iff {op wsel : Nat} {mode : Mode} :
    (∃ i, rowOf op wsel mode = some i ∧ ¬ WellFormed i) ↔ op = 2 ∧ wsel < 5 ∧ mode = .unchecked := by
  unfold rowOf
  split
  case h_28 => -- the pairs that are no row
    simp only [reduceCtorEq, false_and, exists_false, false_iff]
    grind
  all_goals cases mode <;> simp [Instr.wellFormed, Instr.modeless, Instr.mode]

/-! ### The decoder, one equation per test of R78 -/

/-- The row that the fields of a word select, before its UNCHK bit is tested. -/
def selectedRow (c : CmdWord) : Option Instr := rowOf (opField c).toNat (wselField c).toNat (modeField c)

section
variable {c : CmdWord}

theorem decode_of_reservedBits (h : zeroField c ≠ 0) : decode c = .illegal .reservedBits := if_pos h

theorem decode_of_noRow (hzero : zeroField c = 0) (hrow : selectedRow c = none) : decode c = .illegal .opWidth := by
  rw [selectedRow] at hrow
  simp [decode, hzero, hrow]

theorem decode_of_row {i : Instr} (hzero : zeroField c = 0) (hrow : selectedRow c = some i) :
    decode c = if i.wellFormed then .legal i else .illegal .modeOnDcount := by
  rw [selectedRow] at hrow
  simp [decode, hzero, hrow]

theorem decode_eq_legal_iff {i : Instr} :
    decode c = .legal i ↔ zeroField c = 0 ∧ selectedRow c = some i ∧ WellFormed i := by
  constructor
  · intro h
    by_cases hzero : zeroField c = 0
    · cases hrow : selectedRow c with
      | none => simp [decode_of_noRow hzero hrow] at h
      | some j =>
        rw [decode_of_row hzero hrow] at h
        split at h
        · next hj =>
          obtain rfl := Decoded.legal.inj h
          exact ⟨hzero, rfl, hj⟩
        · simp at h
    · simp [decode_of_reservedBits hzero] at h
  · rintro ⟨hzero, hrow, hi⟩
    rw [decode_of_row hzero hrow, if_pos hi]

/-- A word fails one of the three tests. -/
theorem exists_decode_eq_illegal_iff : (∃ why, decode c = .illegal why) ↔
    zeroField c ≠ 0 ∨ selectedRow c = none ∨ ∃ i, selectedRow c = some i ∧ ¬ WellFormed i := by
  by_cases hzero : zeroField c = 0
  · cases hrow : selectedRow c with
    | none => simp [decode_of_noRow hzero hrow]
    | some j => cases hj : j.wellFormed <;> simp [decode_of_row hzero hrow, hzero, hj]
  · exact iff_of_true ⟨_, decode_of_reservedBits hzero⟩ (.inl hzero)

end

/-- Settles O11: a legal word has the fields of its command's own word, and a word is its fields. -/
theorem decodeIsInverseOfEncode : Obligations.DecodeIsInverseOfEncode := by
  intro c i
  rw [decode_eq_legal_iff, selectedRow, rowOf_eq_some_iff]
  constructor
  · rintro ⟨hzero, ⟨hop, hwsel, hmode⟩, hi⟩
    exact ⟨hi, (eq_of_fields_eq (hzero.trans (zeroField_encode i).symm) hmode hwsel hop).symm⟩
  · rintro ⟨hi, rfl⟩
    exact ⟨zeroField_encode i, ⟨rfl, rfl, rfl⟩, hi⟩

/-- Settles O12: a legal word is the encoding of its command; an illegal one fails the test named. -/
theorem printedWordsDecode : Obligations.PrintedWordsDecode := by
  have hlegal : ∀ c i, WellFormed i ∧ encode i = c → decode c = .legal i := fun c i => (decodeIsInverseOfEncode c i).2
  exact ⟨hlegal _ _ (by decide), hlegal _ _ (by decide), hlegal _ _ (by decide), hlegal _ _ (by decide),
    hlegal _ _ (by decide), hlegal _ _ (by decide), decode_of_noRow (by decide) (by decide),
    decode_of_reservedBits (by decide), decode_of_row (i := .dcountU32 .unchecked) (by decide) (by decide)⟩

/-- Settles O13: the three tests of the decoder, each in terms of the bits of the word. -/
theorem illegalWordsAreThoseOfTheList : Obligations.IllegalWordsAreThoseOfTheList := by
  intro c
  dsimp only
  rw [exists_decode_eq_illegal_iff, selectedRow, rowOf_eq_none_iff, exists_rowOf_illFormed_iff, ne_eq, zeroField_eq_zero_iff,
    modeField_eq_unchecked_iff, opField_toNat, wselField_toNat]
  omega

end Sys2Proof
end

section
/-! PROOF. The unit's turn on a pending word and the IllegalCommand ends (30_encoding.md R77, R78, 60_exceptions.md R192, R195),
and the host's fill of BUF (30_encoding.md R81). -/

namespace Sys2Proof.Machine

/-! ### A pending word -/

theorem step_of_cmd {s : State} {c : CmdWord} (h : s.cmd = some c) : step s = perform c s := by
  simp only [step, fetched, h]

theorem perform_of_legal {c : CmdWord} {i : Instr} (h : decode c = .legal i) (s : State) : perform c s = exec i s := by
  simp only [perform, h]

theorem perform_of_illegal {c : CmdWord} {why : IllegalReason} (h : decode c = .illegal why) (s : State) :
    perform c s = .next (s.issued.raised .illegalCommand) := by
  simp only [perform, h]

/-- Settles O6. -/
theorem stepRunsDecodedCommand : Obligations.StepRunsDecodedCommand := by
  intro s c i hcmd hdecode
  rw [step_of_cmd hcmd, perform_of_legal hdecode]

/-! ### The fault arm with IllegalCommand -/

theorem Ends.cmd {s t : State} (h : Ends s t) : t.cmd = none := by
  obtain ⟨l, u, hbody, ⟨n, rfl⟩ | ⟨e, rfl⟩⟩ := h <;> exact hbody.cmd

theorem Ends.keepsHost {s t : State} (h : Ends s t) : KeepsHost s t := by
  obtain ⟨hval, hblen, hvalW, hblenW⟩ := h.operands
  exact ⟨hval, hblen, hvalW, hblenW, h.script, h.cmd⟩

/-- A command that shows RLEN = 0 and no access has taken the fault arm with the STATUS it shows. -/
theorem endsWithFault_of_view {s : State} {o : Answer} {st : Byte} (hends : ∀ t, o = .next t → Ends s t)
    (hview : view o = .next (0, st, [])) : ∃ t, o = .next t ∧ EndsWithFault s t st ∧ t.trace = [] := by
  obtain ⟨t, ht, hrlen, hstatus, htrace⟩ := view_eq_next.1 hview
  have hbuf : t.buf = s.buf := by rw [(hends t ht).buf_eq_replay, htrace]; rfl
  exact ⟨t, ht, ⟨hrlen, hstatus, hbuf, (hends t ht).keepsHost⟩, htrace⟩

theorem exec_fault_of_verdict {i : Instr} {s : State} {st : Byte}
    (h : verdict i s.valWritten s.blenWritten s.blen (valueOf i s) = .next (0, st, [])) :
    ∃ t, exec i s = .next t ∧ EndsWithFault s t st ∧ t.trace = [] :=
  endsWithFault_of_view (fun _ => exec_ends) ((exec_view i s).trans h)

theorem view_perform_of_illegal {c : CmdWord} {why : IllegalReason} (h : decode c = .illegal why) (s : State) :
    view (perform c s) = .next (0, 0x09, []) := by
  rw [perform_of_illegal h, ← statusWord_illegal]
  rfl

/-- Settles O14: the issue lists no access and the fault arm follows it at once. -/
theorem illegalWordTakesFaultArm : Obligations.IllegalWordTakesFaultArm := by
  intro s c why hcmd hdecode
  rw [step_of_cmd hcmd]
  exact endsWithFault_of_view (fun _ => perform_ends) (view_perform_of_illegal hdecode s)

/-- The index test stands before the capacity check (60_exceptions.md R198), so neither the mode nor BLEN enters. -/
theorem pairVerdict_of_le {mode : Mode} {len v : Nat} (h : 100 ≤ v) : pairVerdict mode len v = .next (0, 0x09, []) :=
  if_pos h

/-- Settles O16: with both operands written only the index test decides. -/
theorem lutrdIndexOutOfTableIsIllegal : Obligations.LutrdIndexOutOfTableIsIllegal := by
  intro mode s hwritten hindex
  obtain ⟨hval, hblen⟩ := hwritten
  refine exec_fault_of_verdict ?_
  have hvalue : 100 ≤ valueOf (.lutrdU8 mode) s := hindex
  rw [verdict, hval, hblen, pairVerdict_of_le hvalue]
  rfl

/-- Settles O18: the verdict of DCOUNT with UNCHK set looks at no operand. -/
theorem dcountWithModeIsIllegal : Obligations.DcountWithModeIsIllegal := by
  intro i hi s
  have hrow : i.modeless = true ∧ i.mode = .unchecked := by
    revert i
    decide
  obtain ⟨hmodeless, hmode⟩ := hrow
  have hverdict : verdict i s.valWritten s.blenWritten s.blen (valueOf i s) = .next (0, 0x09, []) := by
    rw [verdict_of_count hmodeless, hmode, countVerdict]
  obtain ⟨t, ht, hfault, -⟩ := exec_fault_of_verdict hverdict
  exact ⟨t, ht, hfault⟩

/-! ### The host's fill -/

theorem hostMove_writeBuf {s : State} (h : statusBusy s.status = false) (off : Nat) (bytes : List Byte) :
    hostMove (.writeBuf off bytes) s = .next { s with buf := memFill s.buf off bytes } := by
  simp [hostMove, h]

/-- Settles O9: the move is one fill of BUF, and `memRead_memFill` says what a fill leaves at every offset. -/
theorem hostFillWritesItsBytes : Obligations.HostFillWritesItsBytes := by
  intro s rest off bytes hcmd hidle hs
  refine ⟨{ s with script := rest, buf := memFill s.buf off bytes }, ?_, memRead_memFill bytes s.buf off, rfl⟩
  rw [step_of_script hcmd hs]
  exact hostMove_writeBuf (s := { s with script := rest }) hidle off bytes

end Sys2Proof.Machine
end

section
/-! PROOF. The pair of an index in BUF (40_digit_pair_lut.md R91 to R97): `put2` is two `put1`, and LUTRD writes the text of
two characters. -/

namespace Sys2Proof.Machine

/-! ### The store primitives on what they accept -/

theorem put1_of_lt {d : Nat} (h : d < 10) (sp : Space) (off : Nat) : put1 sp off d = store sp off (asciiDigit d) :=
  funext fun _ => if_pos h

/-- The two entries of the table are the characters of tens and units (R91). -/
theorem put2_of_lt {i : Nat} (h : i < 100) (sp : Space) (off : Nat) (s : State) :
    put2 sp off i s = andThen (store sp off (asciiDigit (i / 10)) s) (store sp (off + 1) (asciiDigit (i % 10))) := by
  rw [put2, if_pos h, lut_even, lut_odd]

/-- Settles O39: tens and units of the index are digits, so each `put1` is the store that `put2` makes; the answers agree
also where a store stops. -/
theorem pairStoreIsTwoDigitStores : Obligations.PairStoreIsTwoDigitStores := by
  intro sp off i s hi
  have htens : i / 10 < 10 := by omega
  have hunits : i % 10 < 10 := by omega
  rw [put2_of_lt hi, put1_of_lt htens, put1_of_lt hunits]

/-! ### The success arm with a text -/

/-- A command that shows RLEN = n, STATUS = 0x01 and accesses that leave a text of n bytes in BUF has taken the success arm
with that text. -/
theorem endsWithText_of_view {s : State} {o : Answer} {n : Nat} {l : List Access} {text : Nat → Byte}
    (hends : ∀ t, o = .next t → Ends s t) (hview : view o = .next (n, 0x01, l))
    (hread : ∀ j, memRead (replay .buf s.buf l) j = if j < n then some (text j) else memRead s.buf j) :
    ∃ t, o = .next t ∧ EndsWithText s t n text ∧ t.trace = l := by
  obtain ⟨t, ht, hrlen, hstatus, rfl⟩ := view_eq_next.1 hview
  have hbuf := (hends t ht).buf_eq_replay
  refine ⟨t, ht, ⟨hrlen, hstatus, fun j hj => ?_, fun j hj => ?_, (hends t ht).keepsHost⟩, rfl⟩
  · rw [hbuf, hread, if_pos hj]
  · rw [hbuf, hread, if_neg (by omega)]

theorem exec_text_of_verdict {i : Instr} {s : State} {n : Nat} {l : List Access} {text : Nat → Byte}
    (hverdict : verdict i s.valWritten s.blenWritten s.blen (valueOf i s) = .next (n, 0x01, l))
    (hread : ∀ j, memRead (replay .buf s.buf l) j = if j < n then some (text j) else memRead s.buf j) :
    ∃ t, exec i s = .next t ∧ EndsWithText s t n text ∧ t.trace = l :=
  endsWithText_of_view (fun _ => exec_ends) ((exec_view i s).trans hverdict) hread

/-- Stores of `dec_fixed(x, n)` from offset 0 upward leave that text in BUF. -/
theorem memRead_textUp_fixedByte (m : Memory) (x n j : Nat) :
    memRead (replay .buf m (textUp .buf 0 x n)) j = if j < n then some (fixedByte x n j) else memRead m j := by
  simp only [memRead_textUp, Nat.zero_le, true_and, Nat.zero_add, Nat.sub_zero]
  rfl

/-! ### LUTRD -/

/-- With an index of the table and room for its two characters, the mode does not enter. -/
theorem pairVerdict_of_lt {mode : Mode} {len v : Nat} (h : v < 100) (hlen : 2 ≤ len) :
    pairVerdict mode len v = .next (2, 0x01, textUp .buf 0 v 2) := by
  rw [pairVerdict, if_neg (by omega), capacityVerdict_of_le hlen]

/-- Settles O15: the index test and the capacity check pass, and the stores are the text of the index at two characters. -/
theorem lutrdWritesTableEntry : Obligations.LutrdWritesTableEntry := by
  intro mode s hwritten hindex hlen
  obtain ⟨hval, hblen⟩ := hwritten
  have hvalue : valueOf (.lutrdU8 mode) s < 100 := hindex
  refine exec_text_of_verdict (i := .lutrdU8 mode) ?_ (memRead_textUp_fixedByte s.buf (s.val.toNat % 256) 2)
  rw [verdict, hval, hblen, pairVerdict_of_lt hvalue hlen]
  rfl

end Sys2Proof.Machine
end

section
/-! PROOF. DCOUNT leaves the digit count (41_digit_count_estimator.md R100): a value of a width has at most max_digits(W)
digits, and the row lists no access, so BUF stays. -/

namespace Sys2Proof.Machine

/-- max_digits(W) digits reach past every value of the width (00_scope.md R9). -/
theorem two_pow_widthBits_le (w : Width) : 2 ^ widthBits w ≤ 10 ^ maxDigits w := by cases w <;> decide

theorem maxDigits_pos (w : Width) : 1 ≤ maxDigits w := by cases w <;> decide

theorem digits_le_maxDigits {w : Width} {v : Nat} (h : v < 2 ^ widthBits w) : digits v ≤ maxDigits w :=
  digits_le_of_lt_pow (maxDigits_pos w) (lt_of_lt_of_le h (two_pow_widthBits_le w))

theorem digits_valueOf_le_maxDigits (i : Instr) (s : State) : digits (valueOf i s) ≤ maxDigits i.width :=
  digits_le_maxDigits (Nat.mod_lt _ (Nat.two_pow_pos _))

/-- DCOUNT without UNCHK and with VAL written shows the digit count, success and no access, whatever BLEN holds. -/
theorem verdict_of_checked_count {i : Instr} (hmodeless : i.modeless = true) (hmode : i.mode = .checked)
    (blenWritten : Bool) (len v : Nat) : verdict i true blenWritten len v = .next (digits v, 0x01, []) := by
  rw [verdict_of_count hmodeless, hmode]
  rfl

/-- Settles O17: the verdict of DCOUNT is the digit count with an empty access list; the bounds are those of a value of the
width. -/
theorem dcountCountsDigits : Obligations.DcountCountsDigits := by
  intro i hi s hval
  have hrow : i.modeless = true ∧ i.mode = .checked := by
    revert i
    decide
  obtain ⟨hmodeless, hmode⟩ := hrow
  have hview : view (exec i s) = .next (digits (valueOf i s), 0x01, []) := by
    rw [exec_view, hval, verdict_of_checked_count hmodeless hmode]
  obtain ⟨t, ht, hrlen, hstatus, htrace⟩ := view_eq_next.1 hview
  have hends : Ends s t := exec_ends ht
  have hbuf : t.buf = s.buf := by rw [hends.buf_eq_replay, htrace, replay_nil]
  have hlo : 1 ≤ t.rlen := hrlen ▸ digits_pos _
  have hhi : t.rlen ≤ maxDigits i.width := hrlen ▸ digits_valueOf_le_maxDigits i s
  exact ⟨t, ht, hrlen, hlo, hhi, hstatus, hbuf, hends.keepsHost⟩

end Sys2Proof.Machine
end

section
/-! SUPPORT. The text an access list leaves in BUF: every writer of dec(v) leaves dec(v) at offset 0 and no other change, in
whatever order it makes its stores (42_naive_divmod_writer.md R126, 43_paired_digit_writer.md R142,
44_magic_multiply_digit_extractor.md R168, 45_wide_splitter.md R184). -/

namespace Sys2Proof.Machine

/-! ### One offset after a list of accesses -/

theorem memRead_applyAccess_of_ne {sp : Space} {j : Nat} {a : Access} (h : ∀ b, a ≠ .write sp j b) (m : Memory) :
    memRead (applyAccess sp m a) j = memRead m j := by
  cases a with
  | read => rfl
  | write sp' off b =>
    simp only [applyAccess]
    split
    · next hsp => exact memRead_memWrite_of_ne m b fun hoff => h b (by rw [hsp, hoff])
    · rfl

/-- A byte that no access stores to stays as it was. -/
theorem memRead_replay_of_no_write {sp : Space} {j : Nat} {l : List Access} (h : ∀ b, .write sp j b ∉ l) (m : Memory) :
    memRead (replay sp m l) j = memRead m j := by
  induction l generalizing m with
  | nil => rfl
  | cons a rest ih =>
    rw [replay_cons, ih fun b hb => h b (List.mem_cons_of_mem _ hb)]
    exact memRead_applyAccess_of_ne (fun b hb => h b (hb ▸ List.mem_cons_self)) m

/-- A byte that is stored, and always with the same value, has that value afterwards. -/
theorem memRead_replay_of_write {sp : Space} {j : Nat} {b : Byte} {l : List Access} (hmem : .write sp j b ∈ l)
    (hsame : ∀ b', .write sp j b' ∈ l → b' = b) (m : Memory) : memRead (replay sp m l) j = some b := by
  induction l using List.reverseRecOn with
  | nil => simp at hmem
  | append_singleton rest a ih =>
    rw [replay_append, replay_cons, replay_nil]
    by_cases ha : ∃ b', a = .write sp j b'
    · obtain ⟨b', rfl⟩ := ha
      obtain rfl := hsame b' (List.mem_append_right _ List.mem_cons_self)
      simp [applyAccess]
    · have hne : ∀ b', a ≠ .write sp j b' := not_exists.1 ha
      have hrest : Access.write sp j b ∈ rest :=
        (List.mem_append.1 hmem).resolve_right fun h => hne b (List.mem_singleton.1 h).symm
      rw [memRead_applyAccess_of_ne hne]
      exact ih hrest fun b' hb' => hsame b' (List.mem_append_left _ hb')

/-! ### Texts -/

/-- After these accesses BUF holds the first `n` characters of `text` from offset 0 and is otherwise as it was. -/
def LeavesText (n : Nat) (text : Nat → Byte) (l : List Access) : Prop :=
  ∀ m j, memRead (replay .buf m l) j = if j < n then some (text j) else memRead m j

/-- The accesses store to BUF at the offsets from `lo` up to `hi` and nowhere else, and each store is of the text's own character,
so the order of the stores does not matter. -/
structure StoresText (lo hi : Nat) (text : Nat → Byte) (l : List Access) : Prop where
  sound : ∀ off b, .write .buf off b ∈ l → lo ≤ off ∧ off < hi ∧ b = text off
  complete : ∀ off, lo ≤ off → off < hi → .write .buf off (text off) ∈ l

theorem StoresText.memRead_replay {lo hi : Nat} {text : Nat → Byte} {l : List Access} (h : StoresText lo hi text l)
    (m : Memory) (j : Nat) :
    memRead (replay .buf m l) j = if lo ≤ j ∧ j < hi then some (text j) else memRead m j := by
  split
  · next hj =>
    obtain ⟨hlo, hhi⟩ := hj
    refine memRead_replay_of_write (h.complete j hlo hhi) (fun b hb => ?_) m
    obtain ⟨-, -, hbyte⟩ := h.sound j b hb
    exact hbyte
  · next hj =>
    refine memRead_replay_of_no_write (fun b hb => hj ?_) m
    obtain ⟨hlo, hhi, -⟩ := h.sound j b hb
    exact ⟨hlo, hhi⟩

theorem StoresText.leavesText {n : Nat} {text : Nat → Byte} {l : List Access} (h : StoresText 0 n text l) :
    LeavesText n text l := fun m j => by simp only [h.memRead_replay, Nat.zero_le, true_and]

/-! ### The access lists of the writers -/

/-- The `k`-th digit from the right is the `k`-th character from the end of dec(v) (00_scope.md R13). -/
theorem asciiDigit_eq_decByte {v k : Nat} (h : k < digits v) :
    asciiDigit (v / 10 ^ k % 10) = decByte v (digits v - 1 - k) := by
  rw [decByte, decDigit, asciiDigit, show digits v - 1 - (digits v - 1 - k) = k by omega]

theorem space_of_mem_textDown {sp : Space} {cur x n : Nat} {a : Access} (h : a ∈ textDown sp cur x n) : a.space = sp := by
  obtain ⟨k, -, rfl⟩ := List.mem_map.1 h
  rfl

theorem textDown_digits (sp : Space) (cur v : Nat) :
    textDown sp cur v (digits v) =
      (List.range (digits v)).map fun k => .write sp (cur - 1 - k) (decByte v (digits v - 1 - k)) :=
  List.map_congr_left fun _ hk => by rw [asciiDigit_eq_decByte (List.mem_range.1 hk)]

/-- WRM (44_magic_multiply_digit_extractor.md R158). -/
theorem leavesText_textUp (v : Nat) : LeavesText (digits v) (decByte v) (textUp .buf 0 v (digits v)) :=
  fun m => memRead_textUp_fixedByte m v (digits v)

/-- WRNX (42_naive_divmod_writer.md R123). -/
theorem leavesText_textDown (v : Nat) : LeavesText (digits v) (decByte v) (textDown .buf (digits v) v (digits v)) := by
  intro m j
  simp only [memRead_textDown m (Nat.le_refl _), Nat.sub_self, Nat.zero_le, true_and]
  rfl

theorem storesText_copyAccesses (cur n : Nat) (text : Nat → Byte) : StoresText 0 n text (copyAccesses cur text 0 n) where
  sound off b h := by
    obtain ⟨j, hj, heq | heq⟩ := mem_copyAccesses.1 h <;> cases heq
    exact ⟨Nat.zero_le _, hj, rfl⟩
  complete off _ h := mem_copyAccesses.2 ⟨off, h, .inr rfl⟩

/-- WRNT (42_naive_divmod_writer.md R124): the scratch text is not in BUF. -/
theorem leavesText_copied (v cur n : Nat) (text : Nat → Byte) :
    LeavesText n text (scratchStores v ++ copyAccesses cur text 0 n) := by
  intro m j
  have hscratch : replay .buf m (scratchStores v) = m :=
    replay_other m fun a ha => by rw [space_of_mem_textDown ha]; decide
  rw [replay_append, hscratch]
  exact (storesText_copyAccesses cur n text).leavesText m j

/-- What WRP stores: the two characters of each pair, and the first character where it has no partner (R137, R139). -/
theorem write_mem_pairedStores {n off : Nat} {text : Nat → Byte} {b : Byte} :
    .write .buf off b ∈ pairedStores n text ↔
      (∃ k < n / 2, (off = n - 2 - 2 * k ∧ b = text (n - 2 - 2 * k)) ∨ (off = n - 1 - 2 * k ∧ b = text (n - 1 - 2 * k))) ∨
        (n % 2 = 1 ∧ off = 0 ∧ b = text 0) := by
  rw [pairedStores, List.mem_append, List.mem_flatMap]
  refine or_congr ?_ ?_
  · simp only [List.mem_range, List.mem_cons, List.not_mem_nil, or_false, Access.write.injEq, true_and]
  · split
    · next hodd => simp [hodd]
    · next heven => simp [heven]

theorem storesText_pairedStores (n : Nat) (text : Nat → Byte) : StoresText 0 n text (pairedStores n text) where
  sound off b h := by
    obtain ⟨k, hk, ⟨rfl, rfl⟩ | ⟨rfl, rfl⟩⟩ | ⟨hodd, rfl, rfl⟩ := write_mem_pairedStores.1 h <;>
      exact ⟨Nat.zero_le _, by omega, rfl⟩
  complete off _ h := by
    refine write_mem_pairedStores.2 ?_
    by_cases halone : n % 2 = 1 ∧ off = 0
    · obtain ⟨hodd, rfl⟩ := halone
      exact .inr ⟨hodd, rfl, rfl⟩
    · have hpair : off = n - 2 - 2 * ((n - 1 - off) / 2) ∨ off = n - 1 - 2 * ((n - 1 - off) / 2) := by omega
      exact .inl ⟨(n - 1 - off) / 2, by omega, hpair.imp (fun e => ⟨e, by rw [← e]⟩) fun e => ⟨e, by rw [← e]⟩⟩

/-- What a lower chunk of WRW stores after its '0': the nine digits behind the boundary byte, then the boundary byte (R180). -/
theorem storesText_chunk (p : Nat) (text : Nat → Byte) :
    StoresText p (p + 10) text
      (((List.range 9).map fun i => .write .buf (p + 1 + i) (text (p + 1 + i))) ++ [.write .buf p (text p)]) where
  sound off b h := by
    rcases List.mem_append.1 h with h | h
    · obtain ⟨i, hi, heq⟩ := List.mem_map.1 h
      cases heq
      have := List.mem_range.1 hi
      exact ⟨by omega, by omega, rfl⟩
    · cases List.mem_singleton.1 h
      exact ⟨by omega, by omega, rfl⟩
  complete off hlo hhi := by
    rcases Nat.eq_or_lt_of_le hlo with rfl | hlt
    · exact List.mem_append_right _ List.mem_cons_self
    · refine List.mem_append_left _ (List.mem_map.2 ⟨off - (p + 1), List.mem_range.2 (by omega), ?_⟩)
      rw [show p + 1 + (off - (p + 1)) = off by omega]

/-- One lower chunk of WRW: the '0' over the boundary byte is gone once the boundary byte is restored (R180). -/
theorem memRead_chunkAccesses (m : Memory) (d k j : Nat) (text : Nat → Byte) :
    memRead (replay .buf m (chunkAccesses d text k)) j =
      if d + 9 * k - 1 ≤ j ∧ j < d + 9 * k - 1 + 10 then some (text j) else memRead m j := by
  rw [chunkAccesses, List.cons_append, List.cons_append, replay_cons, replay_cons, (storesText_chunk _ _).memRead_replay]
  split
  · rfl
  · exact memRead_memWrite_of_ne m _ (by omega)

/-- WRW (45_wide_splitter.md R179, R180): each chunk extends the text written so far by nine characters. -/
theorem leavesText_wideAccesses {d : Nat} (hd : 1 ≤ d) (text : Nat → Byte) :
    ∀ k, LeavesText (d + 9 * k) text (wideAccesses d k text) := by
  intro k
  induction k with
  | zero =>
    rw [wideAccesses_zero]
    refine StoresText.leavesText ⟨fun off b h => ?_, fun off _ h => List.mem_map.2 ⟨off, List.mem_range.2 h, rfl⟩⟩
    obtain ⟨j, hj, heq⟩ := List.mem_map.1 h
    cases heq
    exact ⟨Nat.zero_le _, List.mem_range.1 hj, rfl⟩
  | succ k ih =>
    intro m j
    rw [wideAccesses_succ, replay_append, memRead_chunkAccesses, ih]
    grind

/-! ### The writers of dec(v) -/

/-- Every writer of dec(v) is the prologue, a capacity check for digits(v) bytes, and accesses that leave dec(v). -/
theorem verdict_of_mem_writersAt {w : Width} {mode : Mode} {i : Instr} (hi : i ∈ writersAt w mode) (v : Nat) :
    ∃ early whole, LeavesText (digits v) (decByte v) whole ∧ ∀ valWritten blenWritten len,
      verdict i valWritten blenWritten len v =
        writtenVerdict valWritten blenWritten (capacityVerdict i.mode len (digits v) early whole) := by
  have hwrw : LeavesText (digits v) (decByte v) (wideAccesses (digits (topChunk v)) (lowerChunks v) (decByte v)) := by
    obtain ⟨-, hdig⟩ := topChunk_lt_and_digits v
    have h := leavesText_wideAccesses (digits_pos (topChunk v)) (decByte v) (lowerChunks v)
    rwa [← hdig] at h
  cases i with
  | wrntU8 | wrntU16 | wrntU32 | wrntU64 | wrntU128 => exact ⟨_, _, leavesText_copied v _ _ _, fun _ _ _ => rfl⟩
  | wrnxU8 | wrnxU16 | wrnxU32 | wrnxU64 | wrnxU128 => exact ⟨_, _, leavesText_textDown v, fun _ _ _ => rfl⟩
  | wrpU8 | wrpU16 | wrpU32 | wrpU64 | wrpU128 =>
    exact ⟨_, _, (storesText_pairedStores _ _).leavesText, fun _ _ _ => rfl⟩
  | wrmU8 | wrmU16 | wrmU32 => exact ⟨_, _, leavesText_textUp v, fun _ _ _ => rfl⟩
  | wrwU64 | wrwU128 => exact ⟨_, _, hwrw, fun _ _ _ => rfl⟩
  | lutrdU8 | dcountU8 | dcountU16 | dcountU32 | dcountU64 | dcountU128 | wrf10U32 =>
    cases w <;> simp [writersAt] at hi

/-- The writers of a width, whatever their modes, read the same operand. -/
theorem width_of_mem_writersAt {w : Width} {mode : Mode} {i : Instr} (hi : i ∈ writersAt w mode) : i.width = w := by
  revert i
  cases w <;> cases mode <;> decide

/-- A writer with both operands written and room for its text ends with dec(v). -/
theorem exec_of_mem_writersAt {w : Width} {mode : Mode} {i : Instr} (hi : i ∈ writersAt w mode) {s : State}
    (hwritten : OperandsWritten s) (hlen : digits (valueOf i s) ≤ s.blen) :
    ∃ t, exec i s = .next t ∧ EndsWithText s t (digits (valueOf i s)) (decByte (valueOf i s)) := by
  obtain ⟨hval, hblen⟩ := hwritten
  obtain ⟨early, whole, htext, hverdict⟩ := verdict_of_mem_writersAt hi (valueOf i s)
  obtain ⟨t, ht, hends, -⟩ := exec_text_of_verdict (i := i) (s := s)
    (by rw [hverdict, hval, hblen, capacityVerdict_of_le hlen]; rfl) (htext s.buf)
  exact ⟨t, ht, hends⟩

/-- A success means that both operands were written and the text fitted, and it makes the accesses of the whole command. -/
theorem success_of_capacityVerdict {valWritten blenWritten : Bool} {mode : Mode} {len need n : Nat}
    {early whole l : List Access}
    (h : writtenVerdict valWritten blenWritten (capacityVerdict mode len need early whole) = .next (n, 0x01, l)) :
    valWritten = true ∧ blenWritten = true ∧ need ≤ len ∧ n = need ∧ l = whole := by
  cases blenWritten with
  | false => simp [writtenVerdict] at h
  | true =>
    cases valWritten with
    | false => simp [writtenVerdict] at h
    | true =>
      change capacityVerdict mode len need early whole = _ at h
      rcases Nat.lt_or_ge len need with hlt | hle
      · cases mode with
        | checked => rw [capacityVerdict_checked hlt] at h; simp at h
        | unchecked => rw [capacityVerdict_unchecked hlt] at h; simp at h
      · rw [capacityVerdict_of_le hle] at h
        simp only [Host.Outcome.next.injEq, Prod.mk.injEq, true_and] at h
        obtain ⟨rfl, rfl⟩ := h
        exact ⟨rfl, rfl, hle, rfl, rfl⟩

/-- What a success of a command with a capacity check shows. -/
theorem exec_success {i : Instr} {mode : Mode} {s t : State} {need : Nat} {early whole : List Access}
    (hverdict : ∀ valWritten blenWritten len, verdict i valWritten blenWritten len (valueOf i s) =
      writtenVerdict valWritten blenWritten (capacityVerdict mode len need early whole))
    (h : exec i s = .next t) (hstatus : t.status = 0x01) :
    OperandsWritten s ∧ need ≤ s.blen ∧ t.rlen = need ∧ t.trace = whole := by
  have hview : view (exec i s) = .next (t.rlen, 0x01, t.trace) := view_eq_next.2 ⟨t, h, rfl, hstatus, rfl⟩
  rw [exec_view, hverdict] at hview
  obtain ⟨hval, hblen, hlen, hrlen, htrace⟩ := success_of_capacityVerdict hview
  exact ⟨⟨hval, hblen⟩, hlen, hrlen, htrace⟩

end Sys2Proof.Machine
end

section
/-! PROOF. The naive writers (42_naive_divmod_writer.md R120 to R126) and what holds of every writer of dec(v): the same BUF at
a width, and no leading zero (95_test_vectors.md Q3). -/

namespace Sys2Proof.Machine

/-! ### The naive writers -/

/-- Settles O19: WRNX and WRNT are writers of their width. -/
theorem naiveWritersWriteDecimal : Obligations.NaiveWritersWriteDecimal := by
  intro mode i hi
  have hwriter : i ∈ writersAt i.width mode := by
    revert i
    cases mode <;> decide
  exact fun _ => exec_of_mem_writersAt hwriter

/-- Settles O24: a success has made the stores of the whole command, and the `k`-th digit the loop divides off is the `k`-th
character from the end of the text. -/
theorem exactNaiveWriterStoresDownward : Obligations.ExactNaiveWriterStoresDownward := by
  intro mode i hi s t h hstatus
  have hverdict : ∀ valWritten blenWritten len v, verdict i valWritten blenWritten len v =
      writtenVerdict valWritten blenWritten
        (capacityVerdict mode len (digits v) [] (textDown .buf (digits v) v (digits v))) := by
    simp only [List.mem_cons, List.not_mem_nil, or_false] at hi
    obtain rfl | rfl | rfl | rfl | rfl := hi <;> exact fun _ _ _ _ => rfl
  obtain ⟨-, -, hrlen, htrace⟩ := exec_success (fun _ _ _ => hverdict _ _ _ _) h hstatus
  rw [htrace, hrlen, textDown_digits]

/-- Settles O25: the same of the scratch text from offset 39 down, then the copy. -/
theorem tempNaiveWriterCopiesScratch : Obligations.TempNaiveWriterCopiesScratch := by
  intro mode i hi s t h hstatus
  have hverdict : ∀ valWritten blenWritten len v, verdict i valWritten blenWritten len v =
      writtenVerdict valWritten blenWritten (capacityVerdict mode len (digits v) (scratchStores v)
        (scratchStores v ++ copyAccesses (Config.scrLen - digits v) (decByte v) 0 (digits v))) := by
    simp only [List.mem_cons, List.not_mem_nil, or_false] at hi
    obtain rfl | rfl | rfl | rfl | rfl := hi <;> exact fun _ _ _ _ => rfl
  obtain ⟨-, -, hrlen, htrace⟩ := exec_success (fun _ _ _ => hverdict _ _ _ _) h hstatus
  rw [htrace, hrlen, scratchStores, textDown_digits, copyAccesses, ← List.range_eq_range']
  rfl

/-- Settles O40: the loop's accesses are the text downward from the cursor, so its space reads the text there and both spaces
are otherwise as they were. -/
theorem divisionLoopMakesOneStorePerDigit : Obligations.DivisionLoopMakesOneStorePerDigit := by
  intro sp s hdigits hsize
  obtain ⟨t, ht, hbody, hcur⟩ := naiveLoop_ok (passes := 39) (digits_le_39 s.tr.v.isLt) hdigits hsize
  refine ⟨t, ht, hcur, ?_, fun k hk => ?_, fun sp' a hout => ?_⟩
  · rw [hbody.trace, textDown_digits]
  · rw [hbody.spaceMem, memRead_textDown _ hdigits, if_pos (by omega), asciiDigit_eq_decByte (by omega)]
    congr 2
    omega
  · rw [hbody.spaceMem]
    by_cases hsp : sp' = sp
    · subst hsp
      rw [memRead_textDown _ hdigits, if_neg (by simp only [ne_eq, not_true, false_or] at hout; omega)]
    · rw [replay_other _ fun x hx => space_of_mem_textDown hx ▸ Ne.symm hsp]

/-! ### The writers of a width -/

/-- Settles O36: each writer leaves dec(v) and no other change, and canonical memories with the same bytes are the same. -/
theorem writersOfAWidthAgree : Obligations.WritersOfAWidthAgree := by
  intro w mode mode' i hi j hj s hwritten hwf hlen
  have hvalue : valueOf j s = valueOf i s := by
    rw [valueOf, valueOf, width_of_mem_writersAt hi, width_of_mem_writersAt hj]
  obtain ⟨t, ht, hrlen, hstatus, htext, hkeep, -⟩ := exec_of_mem_writersAt hi hwritten hlen
  obtain ⟨u, hu, hrlen', hstatus', htext', hkeep', -⟩ := exec_of_mem_writersAt hj hwritten (hvalue ▸ hlen)
  rw [hvalue] at hrlen' htext' hkeep'
  obtain ⟨hwft, -⟩ := (exec_ends ht).memories hwf
  obtain ⟨hwfu, -⟩ := (exec_ends hu).memories hwf
  refine ⟨t, u, ht, hu, Memory.ext_of_wf hwft hwfu fun a => ?_, hrlen.trans hrlen'.symm, hstatus.trans hstatus'.symm⟩
  rcases Nat.lt_or_ge a (digits (valueOf i s)) with ha | ha
  · rw [htext a ha, htext' a ha]
  · rw [hkeep a ha, hkeep' a ha]

/-- The first digit of a value is 0 only where the value is. -/
theorem eq_zero_of_decByte_zero {v : Nat} (h : decByte v 0 = 0x30) : v = 0 := by
  have hdigit : decDigit v (digits v) 0 = 0 := by
    have hnat := congrArg BitVec.toNat h
    have hlt := decDigit_lt v (digits v) 0
    rw [decByte, BitVec.toNat_ofNat] at hnat
    change _ = 0x30 at hnat
    omega
  by_contra hv
  have hlow : 10 ^ (digits v - 1) ≤ v := pow_digits_le hv
  have hsucc : digits v - 1 + 1 = digits v := Nat.sub_add_cancel (digits_pos v)
  have hhigh : v / 10 ^ (digits v - 1) < 10 :=
    Nat.div_lt_of_lt_mul (by rw [← Nat.pow_add_one, hsucc]; exact lt_pow_digits v)
  have hpos : 0 < v / 10 ^ (digits v - 1) := Nat.div_pos hlow (Nat.pow_pos (by omega))
  rw [decDigit, Nat.sub_zero, Nat.mod_eq_of_lt hhigh] at hdigit
  omega

/-- Settles O38: after a success the byte at offset 0 is the first digit of the value. -/
theorem noLeadingZero : Obligations.NoLeadingZero := by
  intro w mode i hi s t h hstatus hzero
  obtain ⟨early, whole, -, hverdict⟩ := verdict_of_mem_writersAt hi (valueOf i s)
  obtain ⟨hwritten, hlen, hrlen, -⟩ := exec_success hverdict h hstatus
  obtain ⟨t', ht', -, -, htext, -, -⟩ := exec_of_mem_writersAt hi hwritten hlen
  obtain rfl : t = t' := Host.Outcome.next.inj (h.symm.trans ht')
  have hfirst := htext 0 (digits_pos _)
  have hvalue : valueOf i s = 0 := eq_zero_of_decByte_zero (Option.some.inj (hfirst.symm.trans hzero))
  exact ⟨by rw [hrlen, hvalue, digits_of_lt_ten (by omega)], hvalue⟩

end Sys2Proof.Machine
end

section
/-! PROOF. The paired writer (43_paired_digit_writer.md R137 to R142): its access list, two characters a pair from the end of
the text down, leaves dec(v) in BUF. -/

namespace Sys2Proof.Machine

/-- A command that is the prologue, then a capacity check for a text, then accesses that leave that text: with both operands
written and room for it, the command ends with the text and has made exactly those accesses, whatever its mode. -/
theorem exec_text_of_capacityVerdict {i : Instr} {mode : Mode} {s : State} {n : Nat} {early whole : List Access}
    {text : Nat → Byte} (hwritten : OperandsWritten s) (hlen : n ≤ s.blen) (htext : LeavesText n text whole)
    (hverdict : ∀ valWritten blenWritten len, verdict i valWritten blenWritten len (valueOf i s) =
      writtenVerdict valWritten blenWritten (capacityVerdict mode len n early whole)) :
    ∃ t, exec i s = .next t ∧ EndsWithText s t n text ∧ t.trace = whole := by
  obtain ⟨hval, hblen⟩ := hwritten
  refine exec_text_of_verdict ?_ (htext s.buf)
  rw [hverdict, hval, hblen, capacityVerdict_of_le hlen]
  rfl

/-- At every width WRP is a capacity check for the digits of the value, then the stores of R137 to R140. -/
theorem verdict_of_mem_wrp {mode : Mode} {i : Instr}
    (hi : i ∈ [Instr.wrpU8 mode, .wrpU16 mode, .wrpU32 mode, .wrpU64 mode, .wrpU128 mode])
    (valWritten blenWritten : Bool) (len v : Nat) :
    verdict i valWritten blenWritten len v = writtenVerdict valWritten blenWritten
      (capacityVerdict mode len (digits v) [] (pairedStores (digits v) (decByte v))) := by
  simp only [List.mem_cons, List.not_mem_nil, or_false] at hi
  obtain rfl | rfl | rfl | rfl | rfl := hi <;> rfl

/-- Settles O20: the stores of WRP hold each character of dec(v) at its offset, and they are all its accesses. -/
theorem pairedWriterWritesDecimal : Obligations.PairedWriterWritesDecimal := by
  intro mode i hi s hwritten hlen
  have htext : LeavesText (digits (valueOf i s)) (decByte (valueOf i s))
      (pairedStores (digits (valueOf i s)) (decByte (valueOf i s))) := (storesText_pairedStores _ _).leavesText
  exact exec_text_of_capacityVerdict hwritten hlen htext fun _ _ _ => verdict_of_mem_wrp hi _ _ _ _

end Sys2Proof.Machine
end

section
/-! PROOF. The magic-multiply writers (44_magic_multiply_digit_extractor.md R158 to R168): WRM and WRF10 store their text from
offset 0 upward, each character once, and nothing else. -/

namespace Sys2Proof.Machine

/-- The upward stores of `dec_fixed(x, n)` from offset 0, one for each offset of the text. -/
theorem textUp_fixedByte (x n : Nat) :
    textUp .buf 0 x n = (List.range n).map fun j => .write .buf j (fixedByte x n j) :=
  List.map_congr_left fun _ _ => by rw [Nat.zero_add, fixedByte, asciiDigit]

/-- `dec(v)` is `dec_fixed(v, digits(v))` (00_scope.md R13). -/
theorem decByte_eq_fixedByte (v j : Nat) : decByte v j = fixedByte v (digits v) j := rfl

/-- At every width WRM is a capacity check for the digits of the value, then the upward stores of R158. -/
theorem verdict_of_mem_wrm {mode : Mode} {i : Instr} (hi : i ∈ [Instr.wrmU8 mode, .wrmU16 mode, .wrmU32 mode])
    (valWritten blenWritten : Bool) (len v : Nat) :
    verdict i valWritten blenWritten len v = writtenVerdict valWritten blenWritten
      (capacityVerdict mode len (digits v) [] (textUp .buf 0 v (digits v))) := by
  simp only [List.mem_cons, List.not_mem_nil, or_false] at hi
  obtain rfl | rfl | rfl := hi <;> rfl

/-- Settles O21: the stores of WRM leave dec(v), and in order they are the characters of dec(v) from offset 0 upward. -/
theorem magicWriterWritesDecimalUpward : Obligations.MagicWriterWritesDecimalUpward := by
  intro mode i hi s hwritten hlen
  obtain ⟨t, ht, hends, htrace⟩ := exec_text_of_capacityVerdict hwritten hlen (leavesText_textUp (valueOf i s))
    fun _ _ _ => verdict_of_mem_wrm hi _ _ _ _
  refine ⟨t, ht, hends, ?_⟩
  simp only [htrace, textUp_fixedByte, decByte_eq_fixedByte]

/-- Settles O22: the same with ten characters for every value, which need a BLEN of at least 10. -/
theorem fixedWriterWritesTenDigits : Obligations.FixedWriterWritesTenDigits := by
  intro mode s hwritten hlen
  have htext : LeavesText 10 (fixedByte (s.val.toNat % 2 ^ 32) 10) (textUp .buf 0 (s.val.toNat % 2 ^ 32) 10) :=
    fun m => memRead_textUp_fixedByte m _ 10
  obtain ⟨t, ht, hends, htrace⟩ := exec_text_of_capacityVerdict (i := .wrf10U32 mode) (mode := mode) (early := [])
    hwritten hlen htext fun _ _ _ => rfl
  exact ⟨t, ht, hends, htrace.trans (textUp_fixedByte _ 10)⟩

end Sys2Proof.Machine
end

section
/-! PROOF. The wide splitter (45_wide_splitter.md R175 to R184): WRW leaves dec(v) with the accesses of its top chunk and of its
stitching, the split loop partitions the value, and the stitching of one chunk keeps the boundary byte. -/

namespace Sys2Proof.Machine

/-! ### WRW -/

/-- The accesses of WRW leave the text of the whole value: its top chunk has the digits that the lower chunks do not. -/
theorem leavesText_wideAccesses_topChunk (v : Nat) :
    LeavesText (digits v) (decByte v) (wideAccesses (digits (topChunk v)) (lowerChunks v) (decByte v)) := by
  obtain ⟨-, hdigits⟩ := topChunk_lt_and_digits v
  have hchunks := leavesText_wideAccesses (digits_pos (topChunk v)) (decByte v) (lowerChunks v)
  rwa [← hdigits] at hchunks

/-- At both widths WRW is a capacity check for the digits of the value, then the accesses of R179 and R180. -/
theorem verdict_of_mem_wrw {mode : Mode} {i : Instr} (hi : i ∈ [Instr.wrwU64 mode, .wrwU128 mode])
    (valWritten blenWritten : Bool) (len v : Nat) :
    verdict i valWritten blenWritten len v = writtenVerdict valWritten blenWritten
      (capacityVerdict mode len (digits v) [] (wideAccesses (digits (topChunk v)) (lowerChunks v) (decByte v))) := by
  simp only [List.mem_cons, List.not_mem_nil, or_false] at hi
  obtain rfl | rfl := hi <;> rfl

/-- Settles O23: the accesses of WRW are those of R179 and R180 and leave dec(v); a value below 2^32 is its own top chunk, with no
lower chunk to stitch. -/
theorem wideSplitterWritesDecimal : Obligations.WideSplitterWritesDecimal := by
  intro mode i hi s hwritten hlen
  obtain ⟨t, ht, hends, htrace⟩ := exec_text_of_capacityVerdict hwritten hlen
    (leavesText_wideAccesses_topChunk (valueOf i s)) fun _ _ _ => verdict_of_mem_wrw hi _ _ _ _
  refine ⟨t, ht, hends, htrace, ?_, fun hsmall => ?_⟩
  · rw [htrace, wideAccesses_length]
  · rw [htrace, topChunk_of_lt hsmall, lowerChunks_of_lt hsmall, wideAccesses_zero]

/-! ### The split loop -/

/-- The top chunk of a value that needs splitting is at least 4 (R177): what is left of 2^32 or more after one division by 10^9. -/
theorem four_le_topChunk {v : Nat} (h : 1 ≤ lowerChunks v) : 4 ≤ topChunk v := by
  induction v using Nat.strongRecOn with
  | _ v ih =>
    rcases Nat.lt_or_ge v (2 ^ 32) with hlt | hle
    · rw [lowerChunks_of_lt hlt] at h
      omega
    · rw [topChunk_of_le hle]
      rcases Nat.lt_or_ge (v / 10 ^ 9) (2 ^ 32) with hlast | hmore
      · rw [topChunk_of_lt hlast]
        omega
      · exact ih (v / 10 ^ 9) (by omega) (by rw [lowerChunks_of_le hmore]; omega)

/-- A value is what is left above its `m` low chunks of nine digits, and those chunks, each at its place. -/
theorem eq_rest_add_sum_chunks (v m : Nat) :
    v = v / 10 ^ (9 * m) * 10 ^ (9 * m) +
      ((List.range m).map fun i => v / 10 ^ (9 * i) % 10 ^ 9 * 10 ^ (9 * i)).sum := by
  induction m with
  | zero => simp
  | succ m ih =>
    have hsplit : v / 10 ^ (9 * m) = v / 10 ^ (9 * (m + 1)) * 10 ^ 9 + v / 10 ^ (9 * m) % 10 ^ 9 := by
      rw [Nat.mul_succ, Nat.pow_add, ← Nat.div_div_eq_div_mul, Nat.div_add_mod']
    have hpow : 10 ^ (9 * (m + 1)) = 10 ^ 9 * 10 ^ (9 * m) := by rw [← Nat.pow_add]; congr 1; omega
    rw [List.range_succ, List.map_append, List.sum_append, List.map_singleton, List.sum_singleton]
    calc v = v / 10 ^ (9 * m) * 10 ^ (9 * m) +
          ((List.range m).map fun i => v / 10 ^ (9 * i) % 10 ^ 9 * 10 ^ (9 * i)).sum := ih
      _ = (v / 10 ^ (9 * (m + 1)) * 10 ^ 9 + v / 10 ^ (9 * m) % 10 ^ 9) * 10 ^ (9 * m) +
          ((List.range m).map fun i => v / 10 ^ (9 * i) % 10 ^ 9 * 10 ^ (9 * i)).sum := by rw [← hsplit]
      _ = _ := by rw [hpow]; ring

/-- What the split loop leaves where no chunk has been split off before it. -/
theorem SplitOff.chunkAt_eq {s t : State} (h : SplitOff s t) (hm : s.tr.m.toNat = 0) {i : Nat}
    (hi : i < lowerChunks s.tr.v.toNat) : (chunkAt t i).toNat = s.tr.v.toNat / 10 ^ (9 * i) % 10 ^ 9 := by
  have hchunk := h.chunks i hi
  rwa [hm, Nat.zero_add] at hchunk

/-- Settles O41: the loop leaves the top chunk and the lower chunks of the value, whose count R177 bounds by the value's size. -/
theorem splitLoopPartitionsValue : Obligations.SplitLoopPartitionsValue := by
  intro s hzero
  have hm : s.tr.m.toNat = 0 := by rw [hzero]; rfl
  have hbound : s.tr.v.toNat < 2 ^ 32 * 10 ^ (9 * 4) := lt_trans s.tr.v.isLt (by norm_num)
  obtain ⟨t, ht, hsplit⟩ := splitLoop_ok (passes := 4) hbound (by omega)
  have hcount : t.tr.m.toNat = lowerChunks s.tr.v.toNat := by rw [hsplit.m, hm, Nat.zero_add]
  obtain ⟨htop, -⟩ := topChunk_lt_and_digits s.tr.v.toNat
  refine ⟨t, ht, hcount, hsplit.v ▸ htop, ?_⟩
  simp only [hcount, hsplit.v]
  refine ⟨lowerChunks_le hbound, fun h64 => ?_, fun i hi => ?_, four_le_topChunk, ?_⟩
  · exact lowerChunks_le (lt_trans h64 (by norm_num))
  · rw [hsplit.chunkAt_eq hm hi]
    exact Nat.mod_lt _ (by norm_num)
  · have hsum : (List.range (lowerChunks s.tr.v.toNat)).map (fun i => (chunkAt t i).toNat * 10 ^ (9 * i)) =
        (List.range (lowerChunks s.tr.v.toNat)).map fun i =>
          s.tr.v.toNat / 10 ^ (9 * i) % 10 ^ 9 * 10 ^ (9 * i) :=
      List.map_congr_left fun i hi => by rw [hsplit.chunkAt_eq hm (List.mem_range.1 hi)]
    rw [hsum]
    exact eq_rest_add_sum_chunks s.tr.v.toNat (lowerChunks s.tr.v.toNat)

/-! ### The stitching of one chunk -/

/-- After the accesses of one stitching the boundary offset reads the restored byte, the nine offsets behind it the low digits of
the chunk, and every other offset what it read before (R180). -/
theorem memRead_stitchAccesses (m : Memory) (p c a : Nat) (b : Byte) :
    memRead (replay .buf m (.read .buf p :: textUp .buf p c 10 ++ [.write .buf p b])) a =
      if a = p then some b
      else if p ≤ a ∧ a < p + 10 then some (asciiDigit (decDigit c 10 (a - p))) else memRead m a := by
  rw [List.cons_append, replay_cons, replay_append]
  change memRead (memWrite (replay .buf m (textUp .buf p c 10)) p b) a = _
  rw [memRead_memWrite, memRead_textUp]

/-- The digits of `dec_fixed(c, 10)` behind the first are `dec_fixed(c, 9)`. -/
theorem asciiDigit_decDigit_ten (c : Nat) {j : Nat} (hj : j < 9) :
    asciiDigit (decDigit c 10 (j + 1)) = fixedByte c 9 j := by
  rw [fixedByte, asciiDigit, decDigit, decDigit, show 10 - 1 - (j + 1) = 9 - 1 - j by omega]

/-- Settles O42: the stores over the boundary byte are undone by the restoring store, and those behind it are the chunk's. -/
theorem stitchKeepsBoundaryByte : Obligations.StitchKeepsBoundaryByte := by
  intro s i b _ hcur hlen _ hb
  obtain ⟨t, ht, hbody, htcur, -⟩ := stitch_ok (i := i) hcur hlen hb
  refine ⟨t, ht, htcur, fun j hj => ?_, fun a ha => ?_, ?_⟩
  · rw [hbody.buf, memRead_stitchAccesses, if_neg (by omega), if_pos (by omega),
      show s.tr.cur + j - (s.tr.cur - 1) = j + 1 by omega, asciiDigit_decDigit_ten _ hj]
  · rw [hbody.buf, memRead_stitchAccesses]
    by_cases hboundary : a = s.tr.cur - 1
    · rw [if_pos hboundary, hboundary, hb]
    · rw [if_neg hboundary, if_neg (by omega)]
  · rw [hbody.trace, ← List.append_assoc]
    rfl

end Sys2Proof.Machine
end

section
/-! PROOF. The capacity check and the two arms (60_exceptions.md R191 to R195, R204): every command that writes BUF is the
prologue and a capacity check of its required length, in both modes, and a whole answer is fixed by what is seen of it. -/

namespace Sys2Proof.Machine

/-! ### What a command leaves alone -/

/-- Accesses that all lie outside BUF leave it. -/
theorem Ends.buf_of_no_access {s t : State} (h : Ends s t) (hno : ∀ a ∈ t.trace, a.space ≠ .buf) : t.buf = s.buf := by
  rw [h.buf_eq_replay, replay_other _ hno]

/-- Settles O31: the accesses of a command lie in BUF only below RLEN, and DCOUNT makes none, so BUF, which is what replaying them
makes of it, is otherwise as it was; on a fault RLEN = 0, so no access lies in BUF at all. -/
theorem commandsKeepEverythingElse : Obligations.CommandsKeepEverythingElse := by
  intro i s t h
  have hends : Ends s t := exec_ends h
  have hbelow : ∀ a ∈ t.trace, a.space = .buf → a.offset < t.rlen := fun a ha => by
    obtain ⟨-, hoff, -⟩ := accessesStayInTheResult i s t h a ha
    exact hoff
  have hcount : i.modeless = true → t.buf = s.buf := fun hi => hends.buf_of_no_access fun a ha => by
    obtain ⟨hwriter, -⟩ := accessesStayInTheResult i s t h a ha
    exact absurd (hwriter.symm.trans hi) (by decide)
  have hfault : t.rlen = 0 → t.buf = s.buf := fun hrlen => hends.buf_of_no_access fun a ha hsp =>
    Nat.not_lt_zero _ (hrlen ▸ hbelow a ha hsp)
  have hproper : Proper (view (.next t)) := h ▸ exec_proper i s
  refine ⟨hends.keepsHost, fun j hj => ?_, hcount, ?_⟩
  · rw [hends.buf_eq_replay]
    exact memRead_replay_of_outside _ fun a ha hsp => Nat.ne_of_lt (lt_of_lt_of_le (hbelow a ha hsp) hj)
  · rcases hproper with ⟨hstatus, hpos, -⟩ | ⟨hstatus, hrlen⟩
    · exact .inl ⟨hstatus, hpos⟩
    · exact .inr ⟨hstatus, hrlen, hfault hrlen⟩

/-! ### The two modes of a row -/

theorem withMode_mode (i : Instr) : i.withMode i.mode = i := by cases i <;> rfl

theorem valueOf_withMode (i : Instr) (mode : Mode) (s : State) : valueOf (i.withMode mode) s = valueOf i s := by
  cases i <;> rfl

/-- In either mode the row is, on the value `v`, the prologue and then a capacity check of its required length, before which it
accesses SCR alone (60_exceptions.md R191). -/
structure ChecksCapacity (i : Instr) (v : Nat) (early whole : List Access) : Prop where
  early_scr : ∀ a ∈ early, a.space = .scr
  verdict_eq : ∀ mode valWritten blenWritten len, verdict (i.withMode mode) valWritten blenWritten len v =
    writtenVerdict valWritten blenWritten (capacityVerdict mode len (requiredLength i v) early whole)

/-- Every command that writes BUF checks its capacity, but for LUTRD of an index outside the table. -/
theorem exists_checksCapacity {i : Instr} {s : State} (hi : i.modeless = false) (hindex : indexIllegal i s = false) :
    ∃ early whole, ChecksCapacity i (valueOf i s) early whole := by
  have hnone : ∀ a ∈ ([] : List Access), a.space = .scr := by simp
  cases i with
  | dcountU8 | dcountU16 | dcountU32 | dcountU64 | dcountU128 => simp [Instr.modeless] at hi
  | lutrdU8 mode =>
    have hvalue : ¬ 100 ≤ valueOf (.lutrdU8 mode) s := of_decide_eq_false hindex
    exact ⟨_, _, hnone, fun _ _ _ _ => by rw [Instr.withMode, verdict, pairVerdict, if_neg hvalue]; rfl⟩
  | wrntU8 | wrntU16 | wrntU32 | wrntU64 | wrntU128 =>
    exact ⟨_, _, fun _ => space_of_mem_textDown, fun _ _ _ _ => rfl⟩
  | wrnxU8 | wrnxU16 | wrnxU32 | wrnxU64 | wrnxU128 | wrpU8 | wrpU16 | wrpU32 | wrpU64 | wrpU128 | wrmU8 | wrmU16 | wrmU32
  | wrf10U32 | wrwU64 | wrwU128 => exact ⟨_, _, hnone, fun _ _ _ _ => rfl⟩

/-- With both operands written the capacity check decides what is seen of the command. -/
theorem ChecksCapacity.view_exec {i : Instr} {s : State} {early whole : List Access}
    (h : ChecksCapacity i (valueOf i s) early whole) (hwritten : OperandsWritten s) :
    view (exec i s) = capacityVerdict i.mode s.blen (requiredLength i (valueOf i s)) early whole := by
  obtain ⟨hval, hblen⟩ := hwritten
  have hverdict := h.verdict_eq i.mode s.valWritten s.blenWritten s.blen
  rw [withMode_mode, hval, hblen] at hverdict
  rw [exec_view, hval, hblen, hverdict]
  rfl

/-- With capacity the mode does not enter (R193). -/
theorem ChecksCapacity.verdict_of_le {i : Instr} {v len : Nat} {early whole : List Access}
    (h : ChecksCapacity i v early whole) (hlen : requiredLength i v ≤ len) (mode : Mode) (valWritten blenWritten : Bool) :
    verdict (i.withMode mode) valWritten blenWritten len v =
      writtenVerdict valWritten blenWritten (.next (requiredLength i v, 0x01, whole)) := by
  rw [h.verdict_eq, capacityVerdict_of_le hlen]

/-! ### BLEN below the required length -/

/-- Settles O26: the capacity check fails before the first access to BUF, and the fault arm follows. -/
theorem checkedShortBufferTakesFaultArm : Obligations.CheckedShortBufferTakesFaultArm := by
  intro i s hi hmode hwritten hindex hshort
  obtain ⟨early, whole, hcheck⟩ := exists_checksCapacity hi hindex
  have hview := hcheck.view_exec hwritten
  rw [hmode, capacityVerdict_checked hshort] at hview
  obtain ⟨t, ht, hrlen, hstatus, htrace⟩ := view_eq_next.1 hview
  have hends : Ends s t := exec_ends ht
  have hno : ∀ a ∈ t.trace, a.space ≠ .buf := fun a ha => by
    rw [hcheck.early_scr a (htrace ▸ ha)]
    decide
  have hnone : bufAccesses t = [] := List.filter_eq_nil_iff.2 fun a ha => by simpa using hno a ha
  exact ⟨t, ht, ⟨hrlen, hstatus, hends.buf_of_no_access hno, hends.keepsHost⟩, hnone⟩

/-- Settles O27: the same check, in the other mode. -/
theorem uncheckedShortBufferRefused : Obligations.UncheckedShortBufferRefused := by
  intro i s hi hmode hwritten hindex hshort
  obtain ⟨early, whole, hcheck⟩ := exists_checksCapacity hi hindex
  have hview := hcheck.view_exec hwritten
  rw [hmode, capacityVerdict_unchecked hshort] at hview
  exact view_eq_refused.1 hview

/-! ### The whole answer -/

/-- The state after a command on `s` that shows RLEN = `n`, STATUS = `st` and the accesses `l`: the command is taken from CMD, BUF
is what the accesses make of it, and the transient registers and SCR are dropped (10_state.md R40, 60_exceptions.md R195). -/
def State.ended (s : State) (n : Nat) (st : Byte) (l : List Access) : State :=
  { s with
    rlen := n
    status := st
    cmd := none
    buf := replay .buf s.buf l
    scr := []
    tr := leftoverTransients s.freeCount
    trace := l
    freeCount := s.freeCount + 1 }

/-- Both arms drop the transient registers and SCR (10_state.md R40). -/
theorem Ends.dropped {s t : State} (h : Ends s t) :
    t.scr = [] ∧ t.tr = leftoverTransients s.freeCount ∧ t.freeCount = s.freeCount + 1 := by
  obtain ⟨l, u, hbody, hend⟩ := h
  have hfree : u.freeCount = s.freeCount := hbody.freeCount
  rw [← hfree]
  obtain ⟨n, rfl⟩ | ⟨e, rfl⟩ := hend <;> exact ⟨rfl, rfl, rfl⟩

/-- RLEN, STATUS and the accesses fix the whole state after a command. -/
theorem Ends.eq_ended {s t : State} (h : Ends s t) : t = s.ended t.rlen t.status t.trace := by
  have hbuf := h.buf_eq_replay
  obtain ⟨hval, hblen, hvalW, hblenW, hscript, hcmd⟩ := h.keepsHost
  obtain ⟨hscr, htr, hfree⟩ := h.dropped
  cases t
  rw [State.ended, State.mk.injEq]
  exact ⟨hval, hblen, rfl, rfl, hcmd, hvalW, hblenW, hbuf, hscr, htr, hscript, rfl, hfree⟩

/-- A command that shows the same as another in the same state answers the same. -/
theorem exec_eq_of_view_eq {i j : Instr} {s : State} (h : view (exec i s) = view (exec j s)) : exec i s = exec j s := by
  rcases exec_next_or_refused i s with ⟨n, st, l, hi⟩ | ⟨r, hi⟩
  · obtain ⟨t, ht, htn, htst, htl⟩ := view_eq_next.1 hi
    obtain ⟨u, hu, hun, hust, hul⟩ := view_eq_next.1 (h ▸ hi)
    rw [ht, hu, (exec_ends ht).eq_ended, (exec_ends hu).eq_ended, htn, htst, htl, hun, hust, hul]
  · exact (view_eq_refused.1 hi).trans (view_eq_refused.1 (h ▸ hi)).symm

/-- An index outside the table stops LUTRD before the capacity check, so the mode does not enter (60_exceptions.md R198). -/
theorem verdict_of_indexIllegal {i : Instr} {s : State} (h : indexIllegal i s = true) (mode : Mode)
    (valWritten blenWritten : Bool) (len : Nat) :
    verdict (i.withMode mode) valWritten blenWritten len (valueOf i s) =
      writtenVerdict valWritten blenWritten (.next (0, 0x09, [])) := by
  cases i with
  | lutrdU8 mode' =>
    have hvalue : 100 ≤ valueOf (.lutrdU8 mode') s := of_decide_eq_true h
    rw [Instr.withMode, verdict, pairVerdict_of_le hvalue]
  | dcountU8 | dcountU16 | dcountU32 | dcountU64 | dcountU128 | wrntU8 | wrntU16 | wrntU32 | wrntU64 | wrntU128
  | wrnxU8 | wrnxU16 | wrnxU32 | wrnxU64 | wrnxU128 | wrpU8 | wrpU16 | wrpU32 | wrpU64 | wrpU128 | wrmU8 | wrmU16 | wrmU32
  | wrf10U32 | wrwU64 | wrwU128 => simp [indexIllegal] at h

/-- Settles O28: the mode enters the verdict only where the capacity check fails, and the verdict fixes the answer. -/
theorem uncheckedEqualsCheckedWithCapacity : Obligations.UncheckedEqualsCheckedWithCapacity := by
  intro i s hi hlen
  refine exec_eq_of_view_eq ?_
  rw [exec_view, exec_view, valueOf_withMode, valueOf_withMode]
  cases hindex : indexIllegal i s with
  | true => rw [verdict_of_indexIllegal hindex, verdict_of_indexIllegal hindex]
  | false =>
    obtain ⟨early, whole, hcheck⟩ := exists_checksCapacity hi hindex
    rw [hcheck.verdict_of_le hlen, hcheck.verdict_of_le hlen]

end Sys2Proof.Machine
end

section
/-! PROOF. Reset, the idle block and the moves the host does not have (70_reset_and_hazards.md R210 to R216, R222, 10_state.md
R31, R41). -/

namespace Sys2Proof.Machine

/-! ### Reset -/

/-- Settles O1: the values are those of `State.reset`, and a read of RLEN or STATUS gives the register's content. -/
theorem resetLeavesIdleBlock : Obligations.ResetLeavesIdleBlock := by
  obtain ⟨-, hread⟩ := hostReadsChangeNothing
  obtain ⟨hrlen, hstatus, -, -⟩ := hread State.reset
  exact ⟨rfl, rfl, rfl, hrlen, hstatus, rfl, rfl⟩

theorem hostMove_reset {s : State} (h : statusBusy s.status = false) : hostMove .reset s = .next s.hostReset := by
  simp [hostMove, h]

/-- Settles O2: the move is `hostReset`, made with the rest of the script. -/
theorem resetInputKeepsBuffer : Obligations.ResetInputKeepsBuffer := by
  intro s rest hcmd hidle hs
  have hstep : step s = .next { s with script := rest }.hostReset := by
    rw [step_of_script hcmd hs]
    exact hostMove_reset (s := { s with script := rest }) hidle
  exact ⟨_, hstep, hostReset_cmd _, hostReset_rlen _, hostReset_status _, hostReset_valWritten _, hostReset_blenWritten _,
    hostReset_buf _, hostReset_script _⟩

/-! ### The idle block -/

theorem hostTurn_of_script_nil {s : State} (h : s.script = []) : hostTurn s = .next s := by
  simp only [hostTurn, h]

theorem step_of_cmd_none {s : State} (h : s.cmd = none) : step s = hostTurn s := by
  simp only [step, fetched, h]

/-- Settles O7: it is the host's turn, and the host has no move left. -/
theorem idleStepChangesNothing : Obligations.IdleStepChangesNothing := by
  intro s hcmd hscript
  rw [step_of_cmd_none hcmd, hostTurn_of_script_nil hscript]

/-! ### Refused moves -/

/-- Reading STATUS is the only move the host has while BUSY = 1 (R213, R216). -/
theorem whileBusy_eq_true_iff {move : HostMove} : move.whileBusy = true ↔ move = .readReg .status := by
  cases move with
  | readReg r => cases r <;> simp [HostMove.whileBusy]
  | writeVal | writeBlen | writeBuf | writeCmd | writeStatus | readBuf | reset => simp [HostMove.whileBusy]

theorem hostMove_of_busy {move : HostMove} {s : State} (hbusy : statusBusy s.status = true)
    (hmove : move ≠ .readReg .status) : hostMove move s = .refused .hostWhileBusy := by
  have hforbidden : move.whileBusy = false := Bool.eq_false_iff.2 (mt whileBusy_eq_true_iff.1 hmove)
  simp [hostMove, hbusy, hforbidden]

theorem hostMove_readCmd {s : State} (h : statusBusy s.status = false) :
    hostMove (.readReg .cmd) s = .refused .cmdRead := by
  simp [hostMove, h]

/-- Settles O10: the test of BUSY stands before every move, and a read of CMD that passes it is refused on its own. -/
theorem forbiddenHostMovesRefused : Obligations.ForbiddenHostMovesRefused := by
  refine ⟨fun s move rest hcmd hs hbusy hmove => ?_, fun s rest hcmd hs hidle => ?_⟩ <;> rw [step_of_script hcmd hs]
  · exact hostMove_of_busy (s := { s with script := rest }) hbusy hmove
  · exact hostMove_readCmd (s := { s with script := rest }) hidle

end Sys2Proof.Machine
end
